-- ==== Sys2Proof/Config.lean ====
section
/-! DEFINITION. The implementation parameters of spec/ rule R5: ONE record, `Config`, with a field for every name of the rule's
table and the table's value as its default, and the free values, opaque constants that nothing can evaluate, for the
parameters the table leaves OPEN. A definition that depends on a parameter takes a `Config` as its last argument, which is the
table where it is not given (log 18). -/

namespace Sys2Proof

/-- ADDR_BITS as the width of a type: the types of addresses are written with it, and it is the default of the record's field. -/
@[simp] abbrev addrBits : Nat := 24
/-- KEY_BITS as the width of a type. -/
@[simp] abbrev keyBits : Nat := 16

/-- VIDEO_SINK_PRESENT, OPEN in R5: a free value (log 8). -/
opaque FreeValue.videoSinkPresent : Bool
/-- AUDIO_SINK_PRESENT, OPEN in R5: a free value (log 8). -/
opaque FreeValue.audioSinkPresent : Bool
/-- VIDEO_LAYOUT, OPEN in R5: a free value, the place of pixel i on a screen (D13, log 9). -/
opaque FreeValue.videoLayout : Nat → Nat × Nat

/-- The configuration record of R5 (D19). -/
structure Config where
  /-- ADDR_BITS: the width of every address field and of the PC. -/
  addrBits : Nat := Sys2Proof.addrBits
  /-- MEM_SIZE: the addressable bytes. -/
  memSize : Nat := 16777216
  /-- PAD_SIZE: the pad bytes after the addressable range. -/
  padSize : Nat := 8
  /-- FIELD_BYTES: the bytes of one instruction field. -/
  fieldBytes : Nat := 3
  /-- INSTR_BYTES: the bytes of one instruction. -/
  instrBytes : Nat := 9
  /-- IPF: the instructions of one frame. -/
  ipf : Nat := 65536
  /-- FPS: the nominal frames per second. -/
  fps : ℚ := 60
  /-- MAX_ELAPSED_MS: the longest elapsed time one tick converts (R70). -/
  maxElapsedMs : ℚ := 50
  /-- DEFAULT_SPEED: the nominal speed multiplier. -/
  defaultSpeed : ℚ := 1
  /-- KEY_BITS: the width of the key state. -/
  keyBits : Nat := Sys2Proof.keyBits
  /-- PIXELS: the pixels of one video block. -/
  pixels : Nat := 65536
  /-- SAMPLES: the samples of one audio block. -/
  samples : Nat := 256
  /-- PALETTE_SIZE: the raw values that have a colour of their own. -/
  paletteSize : Nat := 216
  /-- PALETTE_STEP: the channel step of one base-6 digit. -/
  paletteStep : Nat := 51
  /-- ADDR_KEY_HI: where the key latch puts the high key byte. -/
  addrKeyHi : Nat := 0
  /-- ADDR_KEY_LO: where the key latch puts the low key byte. -/
  addrKeyLo : Nat := 1
  /-- ADDR_PC_VEC: the first of the three bytes the PC is reloaded from. -/
  addrPcVec : Nat := 2
  /-- ADDR_VIDEO_PAGE: the video base byte. -/
  addrVideoPage : Nat := 5
  /-- ADDR_AUDIO_PAGE: the first of the two audio base bytes. -/
  addrAudioPage : Nat := 6
  /-- AUDIO_SINK_PRESENT (R86, D14). -/
  audioSinkPresent : Bool := FreeValue.audioSinkPresent
  /-- VIDEO_SINK_PRESENT (R86, D14). -/
  videoSinkPresent : Bool := FreeValue.videoSinkPresent
  /-- VIDEO_LAYOUT: no rule of the core reads it and no definition of the model does (D13). -/
  videoLayout : Nat → Nat × Nat := FreeValue.videoLayout
  /-- Q_AT_START: the quota counter at VM start (D5). -/
  qAtStart : Nat := 0
  /-- PAD_READS_ZERO: true is the pad reading of the spec (D1, C1); false is the modulo reading, under which array index
  pc + k at or above MEM_SIZE reads address pc + k - MEM_SIZE. -/
  padReadsZero : Bool := true

namespace Config

/-- The record at its defaults: R5's table, and the configuration of the machine `core`. -/
def table : Config := {}

/-- ARRAY_SIZE: the bytes of the memory array, "MEM_SIZE + PAD_SIZE". -/
def arraySize (cfg : Config := table) : Nat := cfg.memSize + cfg.padSize

/-- IPMS: the instructions per millisecond at speed 1, `IPF * FPS / 1000`, an exact rational (R68). -/
def ipms (cfg : Config := table) : ℚ := (cfg.ipf : ℚ) * cfg.fps / 1000

/-- The sizes agree with each other, as R5 says the table's do: the widths are those of the model's types, three whole fields make an
instruction, the highest byte a fetch can read is in the array, the control bytes and the blocks of the last page are in the address
space. -/
structure Agrees (cfg : Config) : Prop where
  addr_width : cfg.addrBits = Sys2Proof.addrBits
  key_width : cfg.keyBits = Sys2Proof.keyBits
  mem_size : cfg.memSize = 2 ^ cfg.addrBits
  field_bytes : 8 * cfg.fieldBytes = cfg.addrBits
  instr_bytes : cfg.instrBytes = 3 * cfg.fieldBytes
  pad_size : cfg.instrBytes ≤ cfg.padSize + 1
  control : cfg.addrKeyHi < cfg.memSize ∧ cfg.addrKeyLo < cfg.memSize ∧ cfg.addrPcVec < cfg.memSize ∧
    cfg.addrVideoPage < cfg.memSize ∧ cfg.addrAudioPage < cfg.memSize
  quota : cfg.qAtStart < cfg.ipf
  video_page : 255 * 65536 + cfg.pixels ≤ cfg.memSize
  audio_page : 65535 * 256 + cfg.samples ≤ cfg.memSize

end Config

end Sys2Proof
end

