-- ==== Sys2Proof/Word.lean ====
section
/-! DEFINITION. The words of the BytePusher-JS core: bytes, 24-bit addresses and the 16-bit key state (spec/ R6, R15). -/

namespace Sys2Proof

/-- A byte, an unsigned integer in [0, 255] (R6). -/
abbrev Byte := BitVec 8

/-- A 24-bit address (ADDR_BITS): a field of an instruction or the program counter (R6, R12, R41). -/
abbrev Addr := BitVec addrBits

/-- The key state, one bit per physical key (KEY_BITS of them), whose bits the core does not interpret (R15). -/
abbrev KeyState := BitVec keyBits

end Sys2Proof
end

