-- ==== Sys2Proof/Syntax.lean ====
section
/-! DEFINITION. The syntax of the machine: its one instruction (spec/ R40, R42), and the notation of the spec's listings (R46). -/

namespace Sys2Proof

/-- The instruction set: copy-byte-and-jump and nothing else (R2, R42). -/
inductive Instr
  /-- `CBJ A, B, C`: the source address, the destination address and the next PC, each absolute (R40, R48). -/
  | cbj (a b c : Addr)
deriving DecidableEq, Repr

/-- A label of a listing; labels are only ever compared, so they are numbered rather than spelled (R46). -/
abbrev Label := Nat

/-- An operand of a listing: "a 24-bit number or a label whose value is an address" (R46). -/
inductive Operand
  | num (n : Nat)
  | label (l : Label)
deriving DecidableEq, Repr

/-- One line of a listing (R46); there is no pseudo-instruction (R47). -/
inductive Item
  /-- `.org N`: the address of the next emitted byte. -/
  | org (n : Nat)
  /-- `.byte b, ...` -/
  | byte (bs : List Nat)
  /-- `.u24 v`: three big-endian bytes. -/
  | u24 (v : Operand)
  /-- `label:` names the current address. -/
  | label (l : Label)
  /-- `CBJ A, B, C` -/
  | cbj (a b c : Operand)
deriving DecidableEq, Repr

end Sys2Proof
end

