-- ==== Sys2Proof/WellFormed.lean ====
section
/-! DEFINITION. Well-formedness. An instruction holds three 24-bit values by its type and every such triple is an
instruction (spec/ R43), so every `Instr` is well-formed; the checks are those of a listing's lines (R46). -/

namespace Sys2Proof

/-- Every instruction is well-formed: all 2^72 bit patterns are well-defined (R43). -/
def Instr.wellFormed : Instr → Bool
  | .cbj _ _ _ => true

/-- A number is a 24-bit number; a label is one of those defined (R46). -/
def Operand.wellFormed (defined : List Label) : Operand → Bool
  | .num n => decide (n < 2 ^ addrBits)
  | .label l => defined.contains l

/-- The labels a listing defines, in order. -/
def Item.labels : List Item → List Label
  | [] => []
  | .label l :: rest => l :: Item.labels rest
  | .org _ :: rest => Item.labels rest
  | .byte _ :: rest => Item.labels rest
  | .u24 _ :: rest => Item.labels rest
  | .cbj _ _ _ :: rest => Item.labels rest

/-- One line is well-formed: an origin inside the address space, bytes of 8 bits, operands of 24 bits (R46). -/
def Item.wellFormed (defined : List Label) : Item → Bool
  | .org n => decide (n < 2 ^ addrBits)
  | .byte bs => bs.all fun b => decide (b < 256)
  | .u24 v => v.wellFormed defined
  | .label _ => true
  | .cbj a b c => a.wellFormed defined && b.wellFormed defined && c.wellFormed defined

/-- A listing is well-formed: each of its lines is, and no label is defined twice (R46, log 14). -/
def Item.listingWellFormed (items : List Item) : Bool :=
  decide (Item.labels items).Nodup && items.all (Item.wellFormed (Item.labels items))

end Sys2Proof
end

