-- ==== Sys2Proof/Decode.lean ====
section
/-! DEFINITION. The byte order of fields, the decoder (total on any bytes) and the encoder (spec/ R26, R40 to R46), and the
words of spec/opcode_table.json. -/

namespace Sys2Proof

/-- The unsigned value of a byte string, the byte at the lowest address the most significant (R26, R27). -/
def bytesValue (bytes : List Byte) : Nat := bytes.foldl (fun v b => v * 256 + b.toNat) 0

/-- The address a byte string gives (R26). -/
def joinBytes (bytes : List Byte) : Addr := BitVec.ofNat addrBits (bytesValue bytes)

/-- The n bytes of a value, lowest address first, which is the most significant first (R27, R40). -/
def valueBytes : Nat → Nat → List Byte
  | 0, _ => []
  | n + 1, v => BitVec.ofNat 8 (v / 256 ^ n) :: valueBytes n v

/-- The 24-bit concatenation h ++ m ++ l, h most significant: `(h << 16) | (m << 8) | l` (R6, R26). -/
def joinField (h m l : Byte) : Addr := joinBytes [h, m, l]

/-- Bits [23:16], [15:8] and [7:0] of a field, the bytes at its lowest, middle and highest address (R27, R40). -/
def fieldHigh (a : Addr) : Byte := a.extractLsb' 16 8
def fieldMid (a : Addr) : Byte := a.extractLsb' 8 8
def fieldLow (a : Addr) : Byte := a.extractLsb' 0 8

/-- The FIELD_BYTES bytes of a field, lowest address first (R27, R40). -/
def fieldBytes (a : Addr) (cfg : Config := .table) : List Byte := valueBytes cfg.fieldBytes a.toNat

/-- The one reason a byte string is not an instruction: it has fewer bytes than one. No 9-byte string is rejected (R43). -/
inductive DecodeError
  /-- Fewer bytes than an instruction has. A fetch always has 9 (R40), so `step` never meets it. -/
  | truncated
deriving DecidableEq, Repr

/-- Takes n bytes off a byte string. -/
def takeBytes : Nat → List Byte → Except DecodeError (List Byte × List Byte)
  | 0, rest => .ok ([], rest)
  | _ + 1, [] => .error .truncated
  | n + 1, b :: rest =>
    match takeBytes n rest with
    | .ok (bytes, rest) => .ok (b :: bytes, rest)
    | .error e => .error e

/-- Takes one big-endian field of FIELD_BYTES bytes off a byte string (R41). -/
def takeField (bytes : List Byte) (cfg : Config := .table) : Except DecodeError (Addr × List Byte) :=
  match takeBytes cfg.fieldBytes bytes with
  | .ok (field, rest) => .ok (joinBytes field, rest)
  | .error e => .error e

/-- The decoder: three fixed-width fields and no opcode (R41, R42); with the instruction, the bytes after it. -/
def decode (bytes : List Byte) (cfg : Config := .table) : Except DecodeError (Instr × List Byte) := do
  let (a, bytes) ← takeField bytes cfg
  let (b, bytes) ← takeField bytes cfg
  let (c, bytes) ← takeField bytes cfg
  return (.cbj a b c, bytes)

/-- The bytes `CBJ A, B, C` assembles to, field after field (R46). -/
def encode (i : Instr) (cfg : Config := .table) : List Byte :=
  match i with
  | .cbj a b c => fieldBytes a cfg ++ fieldBytes b cfg ++ fieldBytes c cfg

/-- The table's word as the bytes memory holds, lowest address first. DEDUCED: the table's row is ONE word of 72 bits with A in
bits 71:48 (opcode_table.json "source_fields", R40), whose most significant byte is at pc; the bits at and above `nbits` are 0
(log 2). -/
def tableBytes (nbits w : Nat) : List Byte := valueBytes Config.table.instrBytes (w % 2 ^ nbits)

/-- What the decoder reads from a word of the opcode table. -/
def decodeTableWord (nbits w : Nat) : Option Instr :=
  match decode (tableBytes nbits w) with
  | .ok (i, _) => some i
  | .error _ => none

end Sys2Proof
end

