-- ==== Sys2Proof/Machine/State.lean ====
section
/-! DEFINITION. The state record of the core (spec/ R9 to R21), the output events (R85), the reasons a transition can stop
(R76, R88), and the state at VM start (R20). -/

namespace Sys2Proof.Machine

/-- The memory array, all 16,777,224 bytes of it (R9): the bytes that are not zero, as (array index, byte) pairs with the
indexes strictly rising. An index that is not listed reads zero, the value all memory has at VM start (R20). -/
abbrev Memory := List Host.Cell

/-- One RGBA pixel, each channel a byte (R81). -/
structure Pixel where
  r : Byte
  g : Byte
  b : Byte
  a : Byte
deriving DecidableEq, Repr

/-- An output block handed to the host: a copy that carries its values (R85). -/
inductive Emission
  /-- `emit Video`: the pixels in order i = 0 .. 65,535 (R81). -/
  | video (pixels : List Pixel)
  /-- `emit Audio`: the signed samples in order i = 0 .. 255 (R84). -/
  | audio (samples : List Int)
deriving DecidableEq, Repr

/-- The state record `s` of the core. -/
structure State where
  /-- `s.M` (R9). -/
  mem : Memory
  /-- `s.pc`, the program counter (R12). -/
  pc : Addr
  /-- `s.q`, the quota counter: the instructions of the current frame already executed, modulo IPF (R13). That it is below IPF
  is the part `quota` of the invariant of Safety.lean. -/
  q : Nat
  /-- `s.frames`, the boundary phases since VM start (R14). -/
  frames : Nat
  /-- `s.keys`, the key state the host holds; only the host writes it (R15). -/
  keys : KeyState
  /-- `s.acc`, the Pacer's carry (R16). -/
  acc : ℚ
  /-- `s.speed`, the speed multiplier (R16). -/
  speed : ℚ
  /-- `s.paused` (R16). -/
  paused : Bool
  /-- The model's own record of the output events, oldest first (R85, D17). No rule reads it (log 4). -/
  emitted : List Emission
deriving DecidableEq, Repr

/-- The faults: none. The hardware raises no exception under any program (R88), so no meaning can answer with one (log 15). -/
inductive Fault
deriving DecidableEq, Repr

/-- The refusals: what the model gives no transition to. -/
inductive Refusal
  /-- An instruction that has no meaning yet, by its mnemonic. Raised by no arm of `exec`. Safe. -/
  | notModelled (mnemonic : String)
  /-- `tick` with e < 0, a call R76 assumes the host never makes. Raised by `tick`. Safe. -/
  | negativeElapsed
  /-- `setSpeed` with m < 0, a call R76 assumes the host never makes. Raised by `setSpeed`. Safe. -/
  | negativeSpeed
  /-- The decoder rejected the fetched bytes. Named only because the decoder is total on every byte string: a fetched
  window has 9 bytes and decodes (R43), so `step` never raises it (log 15). Safe. -/
  | undecodable
deriving DecidableEq, Repr

/-- What a transition answers. -/
abbrev Outcome := Host.Outcome State Fault Refusal

/-- VM start, before the first program load (R20). -/
def State.atStart (cfg : Config := .table) : State where
  mem := []
  pc := 0
  q := cfg.qAtStart
  frames := 0
  keys := 0
  acc := 0
  speed := cfg.defaultSpeed
  paused := false
  emitted := []

/-- VM start of the machine (R20). -/
def State.reset : State := State.atStart

end Sys2Proof.Machine
end

