-- ==== Sys2Proof/Machine/Ops.lean ====
section
/-! DEFINITION. The named operations over memory and registers (spec/ R7, R9, R12, R23 to R26). There is no exception to
take and none to return from (R88, R91, R92), so no operation here takes one. -/

namespace Sys2Proof.Machine

/-- What an unlisted index reads as: memory is "created once at VM start, fully zeroed" (R9, R20). -/
def Memory.unlisted : Byte := 0

/-- The byte at an array index, `s.M[a]`. -/
def Memory.read : Memory → Nat → Byte
  | [], _ => Memory.unlisted
  | (k, v) :: rest, a => if k = a then v else Memory.read rest a

/-- Puts an entry in its place in the rising order. -/
def Memory.insert (a : Nat) (v : Byte) : Memory → Memory
  | [] => [(a, v)]
  | (k, w) :: rest => if a < k then (a, v) :: (k, w) :: rest else (k, w) :: Memory.insert a v rest

/-- `s.M[a] <- v`: the entry of `a` is replaced, and none is kept for the value an unlisted index reads as. -/
def Memory.write (m : Memory) (a : Nat) (v : Byte) : Memory :=
  let others := m.filter fun c => c.1 != a
  if v = Memory.unlisted then others else Memory.insert a v others

/-- The canonical form: indexes strictly rising and inside the array, no entry that an unlisted index would read. -/
def Memory.wf (m : Memory) (cfg : Config := .table) : Bool :=
  match m with
  | [] => true
  | (k, v) :: rest =>
    decide (k < cfg.arraySize) && decide (v ≠ Memory.unlisted) && rest.all (fun c => decide (k < c.1)) && Memory.wf rest cfg

/-- The array that holds `bytes` from index `a` up and zero elsewhere (R63). -/
def Memory.ofBytes (a : Nat) : List Byte → Memory
  | [] => []
  | v :: rest => if v = Memory.unlisted then Memory.ofBytes (a + 1) rest else (a, v) :: Memory.ofBytes (a + 1) rest

/-- Consecutive one-byte writes from index `a` up. -/
def Memory.writeBytes (m : Memory) (a : Nat) : List Byte → Memory
  | [] => m
  | v :: rest => Memory.writeBytes (Memory.write m a v) (a + 1) rest

/-- An index of the memory array, 0 to 0x1000007: no access names anything else (R23, R32). -/
abbrev ArrayIndex (cfg : Config := .table) := Fin cfg.arraySize

/-- Where the byte of an index at or above MEM_SIZE is read: in the pad, or, under the modulo reading that
PAD_READS_ZERO = false stands for, at the index less MEM_SIZE (R5, R23, C1). -/
def homeIndex (i : Nat) (cfg : Config := .table) : Nat :=
  if i < cfg.memSize || cfg.padReadsZero then i else i - cfg.memSize

/-- `MemRead(a, 1)` (R23). Every index the machine reads is one of the array (R32). -/
def memRead (m : Memory) (i : Nat) (cfg : Config := .table) : Byte := m.read (homeIndex i cfg)

/-- `MemWrite(a, 1, v)` (R24); a write names an address, never a pad byte. -/
def memWrite (m : Memory) (a : Addr) (v : Byte) : Memory := m.write a.toNat v

/-- The array index of an address. -/
def addrIndex (a : Addr) : Nat := a.toNat

/-- The array index `a + k` of a fetch: plain integer addition that never wraps (R6, R45). -/
def fetchIndex (a : Addr) (k : Nat) : Nat := a.toNat + k

/-- Consecutive one-byte reads from index `a` up, lowest address first. -/
def readBytes (m : Memory) (a n : Nat) (cfg : Config := .table) : List Byte := (List.range n).map fun j => memRead m (a + j) cfg

/-- `Rd24(a + k)`: a big-endian read of FIELD_BYTES bytes, of an instruction field or of the PC reload field (R7, R26). -/
def rd24 (m : Memory) (a : Addr) (k : Nat) (cfg : Config := .table) : Addr :=
  joinBytes (readBytes m (fetchIndex a k) cfg.fieldBytes cfg)

/-- The window of INSTR_BYTES bytes at an address, lowest byte first (R40). -/
def fetchWindow (m : Memory) (a : Addr) (cfg : Config := .table) : List Byte := readBytes m (fetchIndex a 0) cfg.instrBytes cfg

/-- `pc <- target` (R7, R12). -/
def State.jumpTo (s : State) (target : Addr) : State := { s with pc := target }

/-- `s.q <- (s.q + 1) mod IPF` (R56). -/
def State.countInstruction (s : State) (cfg : Config := .table) : State := { s with q := (s.q + 1) % cfg.ipf }

/-- Goes on with the next state, and hands a fault or a refusal on as it is. -/
def andThen (o : Outcome) (f : State → Outcome) : Outcome :=
  match o with
  | .next s => f s
  | .fault r => .fault r
  | .refused r => .refused r

end Sys2Proof.Machine
end

