-- ==== Sys2Proof/Machine/Operands.lean ====
section
/-! DEFINITION. The operand forms of the one instruction: a byte read at an absolute address, a byte written at an absolute
address, and the jump target, a field that is read after the write (spec/ R41, R48, R50, R53, R54). There is no other
addressing mode, and no flag to compute (R11). -/

namespace Sys2Proof.Machine

/-- The source operand: `MemRead(A, 1)` (R48, R54). -/
def State.readData (s : State) (a : Addr) (cfg : Config := .table) : Byte := memRead s.mem (addrIndex a) cfg

/-- The destination operand: `MemWrite(B, 1, v)` (R48, R54). -/
def State.writeData (s : State) (b : Addr) (v : Byte) : State := { s with mem := memWrite s.mem b v }

/-- A byte of field C as it is read after `v` was written at `b`: the written byte where the field's byte is the one at `b`,
else the byte as fetched. `k` counts from the instruction's first byte. -/
def byteAfterWrite (pc : Addr) (k : Nat) (b : Addr) (v fetched : Byte) (cfg : Config := .table) : Byte :=
  if homeIndex (fetchIndex pc k) cfg = b.toNat then v else fetched

/-- The jump target: field C read after the write, that is "C with byte (B - pc - 6) of the field replaced by v" when B
falls in it (R50). DEDUCED: the meaning is given the fields of the fetched window, so it replaces the byte instead of reading
the field again (log 3). Field C comes after two fields. -/
def targetAfterWrite (pc b c : Addr) (v : Byte) (cfg : Config := .table) : Addr :=
  joinBytes (List.zipWith (fun j fetched => byteAfterWrite pc (2 * cfg.fieldBytes + j) b v fetched cfg)
    (List.range cfg.fieldBytes) (fieldBytes c cfg))

end Sys2Proof.Machine
end

