-- ==== Sys2Proof/Machine/CopyByteJump.lean ====
section
/-! DEFINITION. The one instruction, copy-byte-and-jump (spec/ R48 to R54). -/

namespace Sys2Proof.Machine

/-- `CBJ A, B, C`: copy the byte at A to B, then continue at C as it stands after the write (R48, R50). -/
def execCbj (a b c : Addr) (s : State) (cfg : Config := .table) : Outcome :=
  .next ((s.writeData b (s.readData a cfg)).jumpTo (targetAfterWrite s.pc b c (s.readData a cfg) cfg))

/-- `exec` under another configuration (R5); under the table's it is `exec`. -/
def execUnder (cfg : Config) (i : Instr) (s : State) : Outcome :=
  match i with
  | .cbj a b c => execCbj a b c s cfg

/-- `executeOne` as R48's pseudocode writes it, every field read from memory at the place of its line: field B after one field, field C
after two (R41). No definition of the machine calls it: it is what running the decoded instruction is held against. -/
def executeOne (s : State) (cfg : Config := .table) : State :=
  let a := rd24 s.mem s.pc 0 cfg
  let v := memRead s.mem (addrIndex a) cfg
  let b := rd24 s.mem s.pc cfg.fieldBytes cfg
  let m := memWrite s.mem b v
  let c := rd24 m s.pc (2 * cfg.fieldBytes) cfg
  { s with mem := m, pc := c }

end Sys2Proof.Machine
end

