-- ==== Sys2Proof/Machine/Dispatch.lean ====
section
/-! DEFINITION. One arm per instruction: the opcode map has one entry (spec/ R42). -/

namespace Sys2Proof.Machine

def exec (i : Instr) (s : State) : Host.Outcome State Fault Refusal :=
  match i with
  | .cbj a b c => Sys2Proof.Machine.execCbj a b c s

end Sys2Proof.Machine
end

