-- ==== Sys2Proof/Machine/Extractor.lean ====
section
/-! DEFINITION. The output extractor: the video block with its palette law, the audio block, and what a boundary phase hands to
the sinks (spec/ R78 to R87). -/

namespace Sys2Proof.Machine

/-- One base-6 digit's channel value, `digit * 51` (R81). -/
def channel (digit : Nat) (cfg : Config := .table) : Byte := BitVec.ofNat 8 (digit * cfg.paletteStep)

/-- The palette law (R81): three base-6 digits below 216, opaque black from 216 up; alpha is always 255 (R82). -/
def colour (raw : Byte) (cfg : Config := .table) : Pixel :=
  if raw.toNat < cfg.paletteSize then
    { r := channel (raw.toNat / 36 % 6) cfg, g := channel (raw.toNat / 6 % 6) cfg, b := channel (raw.toNat % 6) cfg, a := 255 }
  else
    { r := 0, g := 0, b := 0, a := 255 }

/-- `vbase = M[5] << 16` (R79). -/
def videoBase (m : Memory) (cfg : Config := .table) : Addr := joinField (memRead m cfg.addrVideoPage cfg) 0 0

/-- `abase = ((M[6] << 8) | M[7]) << 8` (R83). -/
def audioBase (m : Memory) (cfg : Config := .table) : Addr :=
  joinField (memRead m cfg.addrAudioPage cfg) (memRead m (cfg.addrAudioPage + 1) cfg) 0

/-- The array index of `raw_i` (R80). -/
def pixelIndex (m : Memory) (i : Nat) (cfg : Config := .table) : Nat := (videoBase m cfg).toNat + i

/-- The array index of the byte of sample i (R84). -/
def sampleIndex (m : Memory) (i : Nat) (cfg : Config := .table) : Nat := (audioBase m cfg).toNat + i

/-- The video block: pixel i is `colour(raw_i)`, for i below PIXELS (R80, R81). -/
def video (m : Memory) (cfg : Config := .table) : List Pixel :=
  (List.range cfg.pixels).map fun i => colour (memRead m (pixelIndex m i cfg) cfg) cfg

/-- The audio block: sample i is `sext_8` of its byte, for i below SAMPLES (R84). -/
def audio (m : Memory) (cfg : Config := .table) : List Int :=
  (List.range cfg.samples).map fun i => (memRead m (sampleIndex m i cfg) cfg).toInt

/-- What one extraction hands out, video then audio, an absent sink suppressing its own block only (R78, R86). -/
def emissions (videoSink audioSink : Bool) (m : Memory) (cfg : Config := .table) : List Emission :=
  (if videoSink then [Emission.video (video m cfg)] else []) ++ (if audioSink then [Emission.audio (audio m cfg)] else [])

/-- `extract(s)` (R78): it reads memory and adds to the record of events; it writes nothing of the core (R87). -/
def State.extract (s : State) (cfg : Config := .table) : State :=
  { s with emitted := s.emitted ++ emissions cfg.videoSinkPresent cfg.audioSinkPresent s.mem cfg }

end Sys2Proof.Machine
end

