-- ==== Sys2Proof/Machine/Frame.lean ====
section
/-! DEFINITION. The frame controller: the boundary phase, the single-instruction step, the program load (spec/ R55 to R65), and
where a word must lie for the next step to run it. -/

namespace Sys2Proof.Machine

/-- Bits [15:8] and [7:0] of the key state (R58). -/
def keysHigh (k : KeyState) : Byte := k.extractLsb' 8 8
def keysLow (k : KeyState) : Byte := k.extractLsb' 0 8

/-- The address a parameter names. -/
def toAddr (n : Nat) : Addr := BitVec.ofNat addrBits n

/-- The key latch: `s.M[0] <- keys[15:8]`, `s.M[1] <- keys[7:0]` (R58). -/
def State.latchKeys (s : State) (cfg : Config := .table) : State :=
  { s with mem := memWrite (memWrite s.mem (toAddr cfg.addrKeyHi) (keysHigh s.keys)) (toAddr cfg.addrKeyLo) (keysLow s.keys) }

/-- The PC reload: `s.pc <- Rd24(2)` (R59). -/
def State.reloadPc (s : State) (cfg : Config := .table) : State := { s with pc := rd24 s.mem (toAddr cfg.addrPcVec) 0 cfg }

/-- `s.frames <- s.frames + 1` (R60). -/
def State.countFrame (s : State) : State := { s with frames := s.frames + 1 }

/-- The boundary phase: extract, latch the keys, reload the PC, count the frame, in this order (R57, C2). -/
def boundary (s : State) (cfg : Config := .table) : State :=
  (((s.extract cfg).latchKeys cfg).reloadPc cfg).countFrame

/-- The state a step's instruction starts from: the boundary phase runs first when it is due (R55, R56). -/
def boundaryIfDue (s : State) (cfg : Config := .table) : State := if s.q = 0 then boundary s cfg else s

/-- The instruction at the program counter, decoded afresh from memory as it stands (R21, R38, R42), and given to `run`. -/
def fetchAndRun (run : Instr → State → Outcome) (s : State) (cfg : Config := .table) : Outcome :=
  match decode (fetchWindow s.mem s.pc cfg) cfg with
  | .ok (i, _) => run i s
  | .error _ => .refused .undecodable

/-- The machine's own: `exec` of the instruction at the program counter. -/
def runInstruction (s : State) : Outcome := fetchAndRun exec s

/-- `step(s)`, the single-instruction step the Pacer invokes (R56). -/
def frameStep (run : Instr → State → Outcome) (s : State) (cfg : Config := .table) : Outcome :=
  andThen (fetchAndRun run (boundaryIfDue s cfg) cfg) fun t => .next (t.countInstruction cfg)

/-- The step under a configuration (R5); under the table's it is the machine's `step`. -/
def stepUnder (cfg : Config) (s : State) : Outcome := frameStep (execUnder cfg) s cfg

/-- Memory as a program load leaves it: the image from address 0 up, cut at MEM_SIZE, zero elsewhere (R63, R65). -/
def imageMemory (bytes : List Byte) (cfg : Config := .table) : Memory := Memory.ofBytes 0 (bytes.take cfg.memSize)

/-- `loadProgram(bytes)` (R63): memory and the quota counter, and nothing else, in one transition (R64). -/
def loadProgram (bytes : List Byte) (s : State) (cfg : Config := .table) : Outcome :=
  .next { s with mem := imageMemory bytes cfg, q := 0 }

/-- Where the next step fetches its instruction: at the reloaded PC when a boundary is due, else at the PC (R56, R59). -/
def nextFetch (s : State) : Addr := if s.q = 0 then rd24 s.mem (toAddr Config.table.addrPcVec) 0 else s.pc

/-- All 9 bytes of the next window are addressable, and no boundary phase reads or writes one of them (R45, R57). -/
def windowIsFree (s : State) : Bool :=
  decide ((nextFetch s).toNat ≤ Config.table.memSize - Config.table.instrBytes) && (decide (s.q ≠ 0) || decide (8 ≤ (nextFetch s).toNat))

/-- A place for a word outside the program: the first address with no fixed use (R31). -/
def freeAddr : Addr := 8

/-- Points the next fetch at `freeAddr`, through the PC reload field when a boundary is due, else through the PC. -/
def State.redirectFetch (s : State) : State :=
  { s with
    mem := if s.q = 0 then Memory.writeBytes s.mem Config.table.addrPcVec (fieldBytes freeAddr) else s.mem
    pc := if s.q = 0 then s.pc else freeAddr }

/-- The state whose next step runs the word's instruction: the word stands where the step fetches, moved to `freeAddr` only
where it could not stand otherwise (log 7). -/
def placeWord (s : State) (nbits w : Nat) : State :=
  let s := if windowIsFree s then s else s.redirectFetch
  { s with mem := Memory.writeBytes s.mem (nextFetch s).toNat (tableBytes nbits w) }

end Sys2Proof.Machine
end

