-- ==== Sys2Proof/Machine/Step.lean ====
section
/-! DEFINITION. One step of the machine, and the placing of a word for it. -/

namespace Sys2Proof.Machine

/-- One step: the frame controller's single-instruction step, a boundary phase when due and then one instruction (spec/ R56).
The pause flag and the carry act on the tick that invokes steps, not on the step (R72, R74; log 6). -/
def step (s : State) : Host.Outcome State Fault Refusal := frameStep exec s

/-- `s` with the table's word stored where `step` fetches its next instruction (log 2, log 7). -/
def State.withFetchWord (s : State) (nbits w : Nat) : State := placeWord s nbits w

end Sys2Proof.Machine
end

