-- ==== Sys2Proof/Machine/Assembler.lean ====
section
/-! DEFINITION. The spec's listing notation (spec/ R46, R47): what bytes a listing places and the image it makes, which is what
`loadProgram` takes. It is the spec's own notation (D12) and no part of the hardware. -/

namespace Sys2Proof.Machine

/-- How far a line moves the current address. -/
def lineEnd (at_ : Nat) (item : Item) (cfg : Config := .table) : Nat :=
  match item with
  | .org n => n
  | .byte bs => at_ + bs.length
  | .u24 _ => at_ + cfg.fieldBytes
  | .label _ => at_
  | .cbj _ _ _ => at_ + cfg.instrBytes

/-- The address each label names. -/
def labelAddresses (at_ : Nat) (items : List Item) (cfg : Config := .table) : List (Label × Nat) :=
  match items with
  | [] => []
  | .label l :: rest => (l, at_) :: labelAddresses at_ rest cfg
  | item :: rest => labelAddresses (lineEnd at_ item cfg) rest cfg

/-- The 24-bit value of an operand, where it has one (R46). -/
def operandValue (addresses : List (Label × Nat)) : Operand → Option Addr
  | .num n => if n < 2 ^ addrBits then some (BitVec.ofNat _ n) else none
  | .label l =>
    match addresses.lookup l with
    | some n => if n < 2 ^ addrBits then some (BitVec.ofNat _ n) else none
    | none => none

/-- The bytes one line emits. -/
def lineBytes (addresses : List (Label × Nat)) (item : Item) (cfg : Config := .table) : Option (List Byte) :=
  match item with
  | .org _ => some []
  | .byte bs => if bs.all (fun b => decide (b < 256)) then some (bs.map (BitVec.ofNat 8)) else none
  | .u24 v => (operandValue addresses v).map fun a => fieldBytes a cfg
  | .label _ => some []
  | .cbj a b c => do
    let a ← operandValue addresses a
    let b ← operandValue addresses b
    let c ← operandValue addresses c
    return encode (.cbj a b c) cfg

/-- All bytes a listing places, and the end of the highest one; where two lines place a byte at one address the later line's
stands (log 14). -/
def placeLines (addresses : List (Label × Nat)) (items : List Item) (at_ : Nat) (m : Memory) (top : Nat)
    (cfg : Config := .table) : Option (Memory × Nat) :=
  match items with
  | [] => some (m, top)
  | item :: rest =>
    match lineBytes addresses item cfg with
    | none => none
    | some bytes =>
      placeLines addresses rest (lineEnd at_ item cfg) (Memory.writeBytes m at_ bytes)
        (if bytes.isEmpty then top else max top (at_ + bytes.length)) cfg

/-- The address of a listing's first byte where no `.org` comes before it. DESIGN CHOICE: R46 does not say (every listing of
95_test_vectors.md opens with `.org`), and the model starts at address 0, where the image starts (log 14). -/
def listingStart : Nat := 0

/-- The image: "the byte sequence from address 0 up to the highest emitted byte, holes filled with 0" (R46); none for a
listing that is not well-formed. -/
def assemble (items : List Item) (cfg : Config := .table) : Option (List Byte) :=
  if Item.listingWellFormed items then
    (placeLines (labelAddresses listingStart items cfg) items listingStart [] 0 cfg).map fun (m, top) => (List.range top).map m.read
  else none

end Sys2Proof.Machine
end

