-- ==== Sys2Proof/Machine/Pacer.lean ====
section
/-! DEFINITION. The pacer: ticks, the carry, speed and pause (spec/ R68 to R77), in exact rational arithmetic (R71, D7). -/

namespace Sys2Proof.Machine

/-- The elapsed time a tick converts, clamped to 50 ms (R70). -/
def clampElapsed (e : ℚ) (cfg : Config := .table) : ℚ := min e cfg.maxElapsedMs

/-- `s.acc <- s.acc + IPMS * s.speed * e'` (R69, R71). -/
def State.accumulate (s : State) (e : ℚ) (cfg : Config := .table) : State :=
  { s with acc := s.acc + cfg.ipms * s.speed * clampElapsed e cfg }

/-- `s.acc <- s.acc - 1` (R69). -/
def State.spend (s : State) : State := { s with acc := s.acc - 1 }

/-- The key state the host holds when the next step samples it: a boundary takes the next draw, where there is one (R58, R90
item 6, D6, log 5). -/
def State.sampleKeys (s : State) (draws : List KeyState) : State :=
  { s with keys := if s.q = 0 then draws.headD s.keys else s.keys }

/-- The draws the next step leaves for later boundaries. -/
def drawsLeft (s : State) (draws : List KeyState) : List KeyState := if s.q = 0 then draws.tail else draws

/-- `while s.acc >= 1: step(s); s.acc <- s.acc - 1` (R69, R72), at most `fuel` times round. -/
def drain (fuel : Nat) (draws : List KeyState) (s : State) (cfg : Config := .table) : Outcome :=
  match fuel with
  | 0 => .next s
  | fuel + 1 =>
    if 1 ≤ s.acc then
      andThen (stepUnder cfg (s.sampleKeys draws)) fun t => drain fuel (drawsLeft s draws) t.spend cfg
    else
      .next s

/-- `tick(e)` (R69): refused for e < 0 (R76), nothing at all while paused (R74), else accumulate and drain. R76's precondition is on
the call, so it comes before the pause (DEDUCED, log 16). The loop goes round floor(acc) times (R72), which is the fuel it is given
(log 17). `draws` are the key states the host holds at the boundaries the tick runs, in order; after the last one the key state
stays. -/
def tick (e : ℚ) (draws : List KeyState) (s : State) (cfg : Config := .table) : Outcome :=
  if e < 0 then .refused .negativeElapsed
  else if s.paused then .next s
  else drain ⌊(s.accumulate e cfg).acc⌋₊ draws (s.accumulate e cfg) cfg

/-- `setSpeed(m)` (R73): refused for m < 0 (R76). -/
def setSpeed (m : ℚ) (s : State) : Outcome := if m < 0 then .refused .negativeSpeed else .next { s with speed := m }

/-- `setPaused(b)` (R74). -/
def setPaused (b : Bool) (s : State) : Outcome := .next { s with paused := b }

end Sys2Proof.Machine
end

