-- ==== Sys2Proof/Machine/Control.lean ====
section
/-! DEFINITION. The control surface: everything the host can do to the core (spec/ R66), each operation one transition that runs
to completion (R30, R35, R66). -/

namespace Sys2Proof.Machine

/-- The host's operations: the four calls of the control surface, and the host's change of the key state it holds (R15, R66,
D22). -/
inductive HostOp
  | loadProgram (bytes : List Byte)
  /-- `tick(e)`, with the key states the host holds at the boundaries of the tick (log 5). -/
  | tick (e : ℚ) (draws : List KeyState)
  | setSpeed (m : ℚ)
  | setPaused (b : Bool)
  | setKeys (k : KeyState)
deriving DecidableEq, Repr

/-- The host changes the key state it holds; the core sees it at the next boundary (R15, R58, R89). -/
def setKeys (k : KeyState) (s : State) : Outcome := .next { s with keys := k }

/-- One host operation. -/
def hostOp (op : HostOp) (s : State) (cfg : Config := .table) : Outcome :=
  match op with
  | .loadProgram bytes => loadProgram bytes s cfg
  | .tick e draws => tick e draws s cfg
  | .setSpeed m => setSpeed m s
  | .setPaused b => setPaused b s
  | .setKeys k => setKeys k s

/-- A run: a finite sequence of host operations, in order (R67, D17). -/
def hostRun (ops : List HostOp) (s : State) (cfg : Config := .table) : Outcome :=
  match ops with
  | [] => .next s
  | op :: ops => andThen (hostOp op s cfg) fun t => hostRun ops t cfg

end Sys2Proof.Machine
end

