-- ==== Sys2Proof/Safety.lean ====
section
/-! DEFINITION. What the claims call a safe run (spec/ R25, R16, R32, R67, R88). -/

namespace Sys2Proof.Machine

/-- Every pad byte is zero (R25). -/
def Memory.padZero (m : Memory) (cfg : Config := .table) : Prop := ∀ i, cfg.memSize ≤ i → i < cfg.arraySize → m.read i = 0

/-- The Pacer's numbers are not negative (R16). -/
def State.pacerNonneg (s : State) : Prop := 0 ≤ s.acc ∧ 0 ≤ s.speed

/-- The invariant of the core: memory is in its canonical form, the pad is zero, the quota counter is below IPF (R13), the Pacer's
numbers are not negative. -/
structure State.Inv (s : State) : Prop where
  mem_wf : s.mem.wf = true
  pad_zero : s.mem.padZero
  quota : s.q < Config.table.ipf
  pacer : s.pacerNonneg

/-- A machine with nothing loaded: the PC at 0, every byte of the array zero but the two key bytes, and the high key byte zero too
unless a boundary phase is due (R99). -/
structure State.idle (s : State) : Prop where
  pc_zero : s.pc = 0
  mem_zero : ∀ i : ArrayIndex, 2 ≤ i.val → memRead s.mem i = 0
  high_key : memRead s.mem (addrIndex 0) = 0 ∨ s.q = 0

/-- The states a run reaches: from VM start by host operations, and by the steps inside them (R66, R67). -/
inductive Reachable : State → Prop
  | reset : Reachable State.reset
  | step {s t : State} : Reachable s → Sys2Proof.Machine.step s = .next t → Reachable t
  | hostOp {s t : State} (op : HostOp) : Reachable s → Sys2Proof.Machine.hostOp op s = .next t → Reachable t

/-- A state the machine goes on from: the next step neither faults nor is refused (R52, R67, R88). -/
def State.runs (s : State) : Prop := ∃ t, Sys2Proof.Machine.step s = .next t

end Sys2Proof.Machine
end

