-- ==== Sys2Proof/Certificates/Slice0/Obligations.lean ====
section
/-! DEFINITION. The statements for the provers. Rule numbers are those of spec/; "run n s" is the host's `Host.Core.run` on the
machine. A statement that rests on a decision of the spec's own (D1 to D22 of 92_eei_decisions.md) or on an entry of the
assumption log says so. -/

open Sys2Proof Sys2Proof.Machine

/-! Encoding. -/

/-- Words written out from the table's encoding decode to the instruction they stand for (vectors V1, V4, V13 and V15 of
95_test_vectors.md; the table's bit order is log 2). -/
def Obligations.SpecWordsDecode : Prop :=
  decodeTableWord 72 0x000020000021000100 = some (.cbj 0x000020 0x000021 0x000100) ∧
  decodeTableWord 72 0x000020000106000100 = some (.cbj 0x000020 0x000106 0x000100) ∧
  decodeTableWord 72 0xFFFFFFFFFFFFFFFFF7 = some (.cbj 0xFFFFFF 0xFFFFFF 0xFFFFF7) ∧
  decodeTableWord 72 0 = some (.cbj 0 0 0) ∧
  decode [0x12, 0x34, 0x56, 0x78, 0x9A, 0xBC, 0xDE, 0xF0, 0x11] = .ok (.cbj 0x123456 0x789ABC 0xDEF011, [])

/-- Decode and encode agree in both directions: decoding an encoded well-formed instruction gives it back whatever follows it,
and what decodes to an instruction is that instruction's encoding (R40 to R42; the assembled bytes are those of R46, D12). -/
def Obligations.DecodeAndEncodeAgree : Prop :=
  (∀ (i : Instr) (rest : List Byte), i.wellFormed = true → decode (encode i ++ rest) = .ok (i, rest)) ∧
  (∀ (bytes : List Byte) (i : Instr) (rest : List Byte), decode bytes = .ok (i, rest) → bytes = encode i ++ rest)

/-- R43: there is no reserved, illegal, undefined, hint or custom encoding. Every 9-byte string is the encoding of a CBJ that
decodes from it, and that CBJ runs in every state. -/
def Obligations.EveryNineBytesAreACbj : Prop :=
  ∀ bytes : List Byte, bytes.length = 9 →
    ∃ a b c : Addr, decode bytes = .ok (.cbj a b c, []) ∧ encode (.cbj a b c) = bytes ∧
      ∀ s : State, ∃ t : State, exec (.cbj a b c) s = .next t

/-- R40: every instruction is 9 bytes, and with W the 72-bit big-endian value of the nine bytes at pc, most significant byte at
pc, the window decodes to A = W[71:48], B = W[47:24], C = W[23:0]; it takes all nine bytes and has no other field. -/
def Obligations.WindowFieldsAreBitSlices : Prop :=
  (∀ i : Instr, (encode i).length = 9) ∧
  ∀ (m : Memory) (pc : Addr) (w : BitVec 72),
    (∀ k : Fin 9, (memRead m (fetchIndex pc k)).toNat = w.toNat / 256 ^ (8 - k.val) % 256) →
    decode (fetchWindow m pc) = .ok (.cbj (w.extractLsb' 48 24) (w.extractLsb' 24 24) (w.extractLsb' 0 24), [])

/-- A word of the opcode table decodes to the fields at the bits the table's "source_fields" give (the table's bit order and the
zeros above `nbits` are log 2). -/
def Obligations.TableWordFieldsAreBitSlices : Prop :=
  ∀ (nbits : Nat) (w : BitVec 72), nbits ≤ 72 → w.toNat < 2 ^ nbits →
    decodeTableWord nbits w.toNat = some (.cbj (w.extractLsb' 48 24) (w.extractLsb' 24 24) (w.extractLsb' 0 24))

/-- A one-line listing `CBJ A, B, C` assembles to the instruction's 9 bytes (R46, the spec's own notation, D12). That its image is
those bytes and no more rests on the model's choice that a listing with no `.org` starts at address 0 (DESIGN CHOICE, log 14). -/
def Obligations.AssembledCbjIsItsEncoding : Prop :=
  ∀ a b c : Addr, assemble [.cbj (.num a.toNat) (.num b.toNat) (.num c.toNat)] = some (encode (.cbj a b c))

/-! Memory. -/

/-- A write sets its byte and changes no other byte of the array, the pad included (R23, R24). -/
def Obligations.WriteSetsExactlyItsByte : Prop :=
  ∀ (m : Memory) (a : Addr) (v : Byte) (i : ArrayIndex),
    memRead (memWrite m a v) i = if i.val = a.toNat then v else memRead m i

/-- R26: `Rd24` is the big-endian 3-byte value, the byte at the lowest address the most significant, unsigned. -/
def Obligations.Rd24IsBigEndian : Prop :=
  ∀ (m : Memory) (a : Addr) (k : Fin 7) (i₀ i₁ i₂ : ArrayIndex),
    i₀.val = a.toNat + k.val → i₁.val = a.toNat + k.val + 1 → i₂.val = a.toNat + k.val + 2 →
    (rd24 m a k).toNat = (memRead m i₀).toNat * 65536 + (memRead m i₁).toNat * 256 + (memRead m i₂).toNat ∧
    (rd24 m a k).toNat < 2 ^ 24

/-- No access falls outside the array (R32, derived there from R5, R26, R29): a fetch reads at most index 0x1000007, which it reaches;
no byte of a video or audio block lies above 0xFFFFFF, which both reach; the data read at A reads index A, at most 0xFFFFFF; no write
changes an index above 0xFFFFFF; the key latch writes 0 and 1 and no other index, and the PC reload reads 2 to 4. -/
def Obligations.AccessesStayInTheArray : Prop :=
  (∀ (pc : Addr) (k : Fin 9), fetchIndex pc k = pc.toNat + k.val ∧ fetchIndex pc k ≤ 0x1000007) ∧
  fetchIndex 0xFFFFFF 8 = 0x1000007 ∧
  (∀ (m : Memory) (i : Fin 65536), pixelIndex m i ≤ 0xFFFFFF) ∧
  (∀ (m : Memory) (i : Fin 256), sampleIndex m i ≤ 0xFFFFFF) ∧
  (∃ m : Memory, pixelIndex m 65535 = 0xFFFFFF ∧ sampleIndex m 255 = 0xFFFFFF) ∧
  (∀ (s : State) (a : Addr), s.readData a = memRead s.mem (addrIndex a) ∧ addrIndex a = a.toNat ∧ a.toNat ≤ 0xFFFFFF) ∧
  (∀ (m : Memory) (b : Addr) (v : Byte) (i : Nat), 0xFFFFFF < i → (memWrite m b v).read i = m.read i) ∧
  (∀ (s : State) (i : Nat), 1 < i → s.latchKeys.mem.read i = s.mem.read i) ∧
  (∀ s : State, s.reloadPc.pc = joinField (s.mem.read 2) (s.mem.read 3) (s.mem.read 4))

/-- The table of R45 (derived there, under the pad reading D1): which bits of A, B and C read zero at each PC near the top of
memory, when the pad is zero. -/
def Obligations.FetchPastTheTopReadsZeros : Prop :=
  ∀ (m : Memory) (pc a b c : Addr), m.padZero → decode (fetchWindow m pc) = .ok (.cbj a b c, []) →
    (0xFFFFF8 ≤ pc.toNat → fieldLow c = 0) ∧ (0xFFFFF9 ≤ pc.toNat → fieldMid c = 0) ∧ (0xFFFFFA ≤ pc.toNat → c = 0) ∧
    (0xFFFFFB ≤ pc.toNat → fieldLow b = 0) ∧ (0xFFFFFC ≤ pc.toNat → fieldMid b = 0) ∧ (0xFFFFFD ≤ pc.toNat → b = 0) ∧
    (0xFFFFFE ≤ pc.toNat → fieldLow a = 0) ∧ (0xFFFFFF ≤ pc.toNat → fieldMid a = 0)

/-- A fetch sees every earlier write at once (R34, R38, R103): after a CBJ, any window reads the copied byte where it covers B and
the bytes before the instruction elsewhere. -/
def Obligations.NextFetchSeesTheWrite : Prop :=
  ∀ (a b c : Addr) (s : State), ∃ t : State, exec (.cbj a b c) s = .next t ∧
    ∀ (pc : Addr) (k : Fin 9), memRead t.mem (fetchIndex pc k) =
      if pc.toNat + k.val = b.toNat then memRead s.mem (addrIndex a) else memRead s.mem (fetchIndex pc k)

/-! The instruction. -/

/-- `CBJ A, B, C` completes in every state: M[B] becomes the old M[A]; every other byte of the array is unchanged; the PC becomes C
with, where B lies in the instruction's own field C, that byte replaced by the copied one; every other field of the state is
unchanged (R48, R49; the replaced byte is R50's, resting on D2 and C4, log 3). -/
def Obligations.CbjCopiesOneByteAndJumps : Prop :=
  ∀ (a b c : Addr) (s : State), ∃ t : State, exec (.cbj a b c) s = .next t ∧
    memRead t.mem (addrIndex b) = memRead s.mem (addrIndex a) ∧
    (∀ i : ArrayIndex, i.val ≠ b.toNat → memRead t.mem i = memRead s.mem i) ∧
    (b.toNat < s.pc.toNat + 6 ∨ s.pc.toNat + 8 < b.toNat → t.pc = c) ∧
    (b.toNat = s.pc.toNat + 6 → t.pc = joinField (memRead s.mem (addrIndex a)) (fieldMid c) (fieldLow c)) ∧
    (b.toNat = s.pc.toNat + 7 → t.pc = joinField (fieldHigh c) (memRead s.mem (addrIndex a)) (fieldLow c)) ∧
    (b.toNat = s.pc.toNat + 8 → t.pc = joinField (fieldHigh c) (fieldMid c) (memRead s.mem (addrIndex a))) ∧
    t.q = s.q ∧ t.frames = s.frames ∧ t.keys = s.keys ∧ t.acc = s.acc ∧ t.speed = s.speed ∧ t.paused = s.paused ∧
    t.emitted = s.emitted

/-- Running the instruction decoded from the window at the PC is R48's pseudocode, which reads each field from memory at its own
place in the order of R50, field C after the write (D2, C4). -/
def Obligations.DecodedRunIsThePseudocode : Prop :=
  ∀ s : State, ∃ i : Instr, decode (fetchWindow s.mem s.pc) = .ok (i, []) ∧ exec i s = .next (executeOne s)

/-- The jump goes elsewhere than the field C fetched before the write exactly when B lies in pc + 6 .. pc + 8 and the copy changes
that byte (R50, resting on D2 and C4). -/
def Obligations.JumpDiffersExactlyWhenOwnFieldCChanges : Prop :=
  ∀ (s : State) (a b c : Addr), decode (fetchWindow s.mem s.pc) = .ok (.cbj a b c, []) →
    ∃ t : State, exec (.cbj a b c) s = .next t ∧
      (t.pc ≠ c ↔ s.pc.toNat + 6 ≤ b.toNat ∧ b.toNat ≤ s.pc.toNat + 8 ∧
        memRead s.mem (addrIndex b) ≠ memRead s.mem (addrIndex a))

/-- A copy of a byte's own value (A = B, or M[A] = M[B]) leaves memory as it was, as data (R48's first corner case, R49). The premise
on the form of memory rules out lists that no run reaches. -/
def Obligations.CopyOfTheSameByteKeepsMemory : Prop :=
  ∀ (a b c : Addr) (s : State), s.mem.wf = true → memRead s.mem (addrIndex a) = memRead s.mem (addrIndex b) →
    ∃ t : State, exec (.cbj a b c) s = .next t ∧ t.mem = s.mem

/-- At pc = 0xFFFFFF, with the pad zero, the instruction is `CBJ (M[0xFFFFFF] << 16), 0, 0`: it copies that byte to address 0 and
jumps to 0 (R51, derived there, under D1). -/
def Obligations.TopInstructionCopiesToZero : Prop :=
  ∀ s : State, s.mem.padZero → s.pc = 0xFFFFFF →
    ∃ t : State, runInstruction s = .next t ∧ t.pc = 0 ∧
      memRead t.mem (addrIndex 0) = memRead s.mem (addrIndex (joinField (memRead s.mem (addrIndex 0xFFFFFF)) 0 0)) ∧
      ∀ i : ArrayIndex, i.val ≠ 0 → memRead t.mem i = memRead s.mem i

/-- A write to the PC reload field does not move the PC: it goes to C, and the next boundary phase reloads from the field with the
new byte in it (R104; the stated form leaves out a B in the instruction's own field C, for which CbjCopiesOneByteAndJumps
says where the jump goes). -/
def Obligations.PcVectorWriteWaitsForTheBoundary : Prop :=
  ∀ (a b c : Addr) (s : State), 2 ≤ b.toNat → b.toNat ≤ 4 → (b.toNat < s.pc.toNat + 6 ∨ s.pc.toNat + 8 < b.toNat) →
    ∃ t : State, exec (.cbj a b c) s = .next t ∧ t.pc = c ∧
      (boundary t).pc = joinField
        (if b.toNat = 2 then memRead s.mem (addrIndex a) else memRead s.mem (addrIndex 2))
        (if b.toNat = 3 then memRead s.mem (addrIndex a) else memRead s.mem (addrIndex 3))
        (if b.toNat = 4 then memRead s.mem (addrIndex a) else memRead s.mem (addrIndex 4))

/-- What an instruction does to memory and the PC depends on memory and the PC alone (R11, R12, R14, R16, R19): the counters, the key
state, the Pacer's registers and the record of events are not read. -/
def Obligations.InstructionReadsOnlyMemoryAndPc : Prop :=
  ∀ (i : Instr) (s s' : State), s.mem = s'.mem → s.pc = s'.pc →
    ∃ t t' : State, exec i s = .next t ∧ exec i s' = .next t' ∧ t.mem = t'.mem ∧ t.pc = t'.pc

/-! The step and the frame. -/

/-- A step runs the decoded instruction: from the state after the boundary phase, which runs first exactly when q = 0, `step` is
`exec` of what the bytes at the PC decode to, and then the count of one instruction (R56). -/
def Obligations.StepRunsTheDecodedInstruction : Prop :=
  ∀ (s : State) (i : Instr) (rest : List Byte),
    (s.q = 0 → decode (fetchWindow (boundary s).mem (boundary s).pc) = .ok (i, rest) →
      step s = andThen (exec i (boundary s)) fun t => .next { t with q := (t.q + 1) % 65536 }) ∧
    (s.q ≠ 0 → decode (fetchWindow s.mem s.pc) = .ok (i, rest) →
      step s = andThen (exec i s) fun t => .next { t with q := (t.q + 1) % 65536 })

/-- The effect of one step (R56, under the quota encoding of D3): a boundary phase exactly when q = 0, then R48's pseudocode, then
q + 1 modulo 65,536; the key state, the Pacer's registers, and outside a boundary the frame counter and the record of events, are
unchanged. -/
def Obligations.StepIsBoundaryThenInstruction : Prop :=
  ∀ s : State, ∃ t : State, step s = .next t ∧
    (s.q = 0 → t.mem = (executeOne (boundary s)).mem ∧ t.pc = (executeOne (boundary s)).pc ∧
      t.frames = s.frames + 1 ∧ t.emitted = (boundary s).emitted) ∧
    (s.q ≠ 0 → t.mem = (executeOne s).mem ∧ t.pc = (executeOne s).pc ∧ t.frames = s.frames ∧ t.emitted = s.emitted) ∧
    t.q = (s.q + 1) % 65536 ∧ t.keys = s.keys ∧ t.acc = s.acc ∧ t.speed = s.speed ∧ t.paused = s.paused

/-- The boundary phase (R57, R58, R59; the frame count is D4's): the events are extracted from memory as it was, bytes 0 and 1
become the key state's high and low byte, the PC becomes the big-endian value of bytes 2 to 4 whatever it was, the frame counter
goes up by one, and nothing else changes. -/
def Obligations.BoundaryExtractsLatchesReloads : Prop :=
  ∀ s : State,
    (boundary s).emitted = s.emitted ++ emissions Config.table.videoSinkPresent Config.table.audioSinkPresent s.mem ∧
    (∀ i : ArrayIndex, memRead (boundary s).mem i =
      if i.val = 0 then s.keys.extractLsb' 8 8 else if i.val = 1 then s.keys.extractLsb' 0 8 else memRead s.mem i) ∧
    (boundary s).pc.toNat = (memRead s.mem (addrIndex 2)).toNat * 65536 + (memRead s.mem (addrIndex 3)).toNat * 256 +
      (memRead s.mem (addrIndex 4)).toNat ∧
    (boundary s).frames = s.frames + 1 ∧
    (boundary s).q = s.q ∧ (boundary s).keys = s.keys ∧ (boundary s).acc = s.acc ∧ (boundary s).speed = s.speed ∧
    (boundary s).paused = s.paused

/-- No number of steps from any state ends in a fault or a refusal: nothing halts the machine (R52, R67, R88). -/
def Obligations.RunsNeverStop : Prop :=
  ∀ (n : Nat) (s : State), ∃ t : State, Host.Core.run Sys2Proof.core n s = .next t

/-- A frame (R61, R55, under the quota encoding of D3): from q = 0, the first n steps, n from 1 to 65,536, are one boundary phase and
then n times R48's pseudocode, each from the PC the one before returned; q is n modulo 65,536, so it is 0 again after 65,536. -/
def Obligations.FrameIsBoundaryThenQuota : Prop :=
  ∀ (s : State) (n : Nat), s.q = 0 → 0 < n → n ≤ 65536 →
    ∃ t : State, Host.Core.run Sys2Proof.core n s = .next t ∧
      t.mem = (executeOne^[n] (boundary s)).mem ∧ t.pc = (executeOne^[n] (boundary s)).pc ∧
      t.q = n % 65536 ∧ t.frames = s.frames + 1 ∧ t.emitted = (boundary s).emitted

/-- Any 65,536 consecutive steps contain exactly one boundary phase: the frame counter goes up by one, q is back where it was, and the
events are those of one extraction, from the memory at the one state with q = 0 (R60, derived there; D3, D4). q is in R13's range,
which the invariant keeps. -/
def Obligations.QuotaOfStepsHasOneBoundary : Prop :=
  ∀ s : State, s.q < 65536 → ∃ t : State, Host.Core.run Sys2Proof.core 65536 s = .next t ∧
    t.frames = s.frames + 1 ∧ t.q = s.q ∧
    ∃ (k : Nat) (u : State), k < 65536 ∧ Host.Core.run Sys2Proof.core k s = .next u ∧ u.q = 0 ∧
      t.emitted = s.emitted ++ emissions Config.table.videoSinkPresent Config.table.audioSinkPresent u.mem

/-- Output timing (R62, R106, derived there): the second boundary of two frames extracts memory as the first frame's 65,536
instructions left it, before the key latch; the first one extracts the memory the frame started from. That the second extraction
falls in step 65,537 is D3's quota encoding (log 1), and that both see the same sinks is the model's choice of sink flags fixed for a
run (DESIGN CHOICE, log 8). -/
def Obligations.OutputShowsTheFinishedFrame : Prop :=
  ∀ s : State, s.q = 0 →
    ∃ t u : State, Host.Core.run Sys2Proof.core 65536 s = .next t ∧ step t = .next u ∧
      t.mem = (executeOne^[65536] (boundary s)).mem ∧
      u.emitted = s.emitted ++ emissions Config.table.videoSinkPresent Config.table.audioSinkPresent s.mem ++
        emissions Config.table.videoSinkPresent Config.table.audioSinkPresent t.mem

/-- A change of the key state between boundaries is seen by no instruction (R58, R89): with q other than 0, a step from another key
state is the same step with that key state. -/
def Obligations.KeyChangeWaitsForTheBoundary : Prop :=
  ∀ (s : State) (k : KeyState), s.q ≠ 0 →
    step { s with keys := k } = andThen (step s) fun t => .next { t with keys := k }

/-- A step neither reads nor writes the Pacer's registers (R16, R19): from other values of them it is the same step with those
values. -/
def Obligations.StepIgnoresThePacer : Prop :=
  ∀ (s : State) (acc speed : ℚ) (paused : Bool),
    step { s with acc := acc, speed := speed, paused := paused } =
      andThen (step s) fun t => .next { t with acc := acc, speed := speed, paused := paused }

/-- The machine with nothing loaded (R99, derived there from R20, whose key value k is the host's): the first step extracts an
all-black video block and an all-zero audio block where a sink is attached, and after every later number of steps the PC is 0,
byte 1 holds the low key byte and every other byte is 0. -/
def Obligations.EmptyMachineRunsAtZero : Prop :=
  ∀ (k : KeyState) (n : Nat), ∃ t : State,
    Host.Core.run Sys2Proof.core (n + 1) { State.reset with keys := k } = .next t ∧ t.pc = 0 ∧
    (∀ i : ArrayIndex, memRead t.mem i = if i.val = 1 then k.extractLsb' 0 8 else 0) ∧
    emissions true true State.reset.mem =
      [.video (List.replicate 65536 { r := 0, g := 0, b := 0, a := 255 }), .audio (List.replicate 256 0)] ∧
    (n = 0 → t.emitted = emissions Config.table.videoSinkPresent Config.table.audioSinkPresent State.reset.mem)

/-! The program load. -/

/-- R65: a load leaves memory equal to the program zero-padded, cut at the address space: index i holds bytes[i] below both MEM_SIZE
and the length, and zero elsewhere, the pad included. -/
def Obligations.LoadedMemoryIsTheImage : Prop :=
  ∀ (bytes : List Byte) (s : State), ∃ t : State, loadProgram bytes s = .next t ∧
    ∀ i : ArrayIndex, memRead t.mem i = if i.val < 16777216 then bytes.getD i.val 0 else 0

/-- A load writes memory and the quota counter and nothing else (R63; what it leaves alone is D4's and D11's). -/
def Obligations.LoadWritesMemoryAndQuotaOnly : Prop :=
  ∀ (bytes : List Byte) (s : State), ∃ m : Memory,
    loadProgram bytes s = .next { s with mem := m, q := 0 } ∧ m.wf = true

/-- The step after a load, from whatever state (R62, R63, R90 item 4, R100, R108): a boundary phase that extracts the image as loaded
and starts at the address in the image's bytes 2 to 4 (zero where the image is shorter), then one instruction. -/
def Obligations.StepAfterLoadStartsTheImage : Prop :=
  ∀ (bytes : List Byte) (s : State), ∃ l t : State, loadProgram bytes s = .next l ∧ step l = .next t ∧
    (boundary l).pc = joinField (bytes.getD 2 0) (bytes.getD 3 0) (bytes.getD 4 0) ∧
    t.mem = (executeOne (boundary l)).mem ∧ t.pc = (executeOne (boundary l)).pc ∧ t.q = 1 ∧ t.frames = s.frames + 1 ∧
    t.emitted = s.emitted ++ emissions Config.table.videoSinkPresent Config.table.audioSinkPresent l.mem

/-! The pacer. -/

/-- The rate constant is exactly 98304/25 instructions per millisecond, and one nominal frame of 50/3 ms is exactly 65,536 of them
(R68, derived there from R5's values). -/
def Obligations.RateConstantIsExact : Prop :=
  Config.ipms = 98304 / 25 ∧ Config.ipms * (50 / 3) = 65536

/-- R70: a tick of more than 50 ms is a tick of 50 ms, and one tick adds at most 196,608 times the speed to the carry. -/
def Obligations.TickIsClampedToFiftyMilliseconds : Prop :=
  (∀ (e : ℚ) (draws : List KeyState) (s : State), 50 ≤ e → tick e draws s = tick 50 draws s) ∧
  (∀ (e : ℚ) (s : State), 0 ≤ s.speed → (s.accumulate e).acc ≤ s.acc + 196608 * s.speed) ∧
  (∀ (e : ℚ) (s : State), 50 ≤ e → (s.accumulate e).acc = s.acc + 196608 * s.speed)

/-- R72 for a tick in which the host's key state does not change (log 5), its step count exact by D7 (log 10): an unpaused tick runs
floor(acc + IPMS * speed * min(e, 50)) steps, each the single-instruction step, and leaves the fractional part in the carry, in
[0, 1); everything else is as those steps leave it. TickLatchesEachDraw is the same for a tick in which the keys change. -/
def Obligations.TickRunsTheWholePartOfTheCarry : Prop :=
  ∀ (e : ℚ) (s : State), 0 ≤ e → s.paused = false → 0 ≤ s.acc → 0 ≤ s.speed →
    ∃ (n : Nat) (t u : State), n = ⌊s.acc + Config.ipms * s.speed * min e 50⌋₊ ∧
      tick e [] s = .next t ∧ Host.Core.run Sys2Proof.core n s = .next u ∧
      t = { u with acc := s.acc + Config.ipms * s.speed * min e 50 - n } ∧ 0 ≤ t.acc ∧ t.acc < 1

/-- A tick completes whatever key states the host holds during it, and these change neither the number of steps it runs nor the carry:
q and the frame counter move by floor(acc + IPMS * speed * min(e, 50)) steps (R69, R72; the draws are D6's and log 5's, the exact count
and carry D7's and log 10's). q is in R13's range, which the invariant keeps. -/
def Obligations.TickStepCountIgnoresTheKeys : Prop :=
  ∀ (e : ℚ) (draws : List KeyState) (s : State), 0 ≤ e → s.paused = false → 0 ≤ s.acc → 0 ≤ s.speed → s.q < 65536 →
    ∃ (n : Nat) (t : State), n = ⌊s.acc + Config.ipms * s.speed * min e 50⌋₊ ∧ tick e draws s = .next t ∧
      t.acc = s.acc + Config.ipms * s.speed * min e 50 - n ∧ t.speed = s.speed ∧ t.paused = s.paused ∧
      t.q = (s.q + n) % 65536 ∧
      t.frames + (s.q + 65535) / 65536 = s.frames + (s.q + n + 65535) / 65536

/-- The carry is lossless (R71, exact by D7, log 10): two unpaused ticks of together at most 50 ms, the key state held all through
(log 5), leave the same state as one tick of the sum. -/
def Obligations.SplitTicksEqualOneTick : Prop :=
  ∀ (e₁ e₂ : ℚ) (s : State), 0 ≤ e₁ → 0 ≤ e₂ → e₁ + e₂ ≤ 50 → s.paused = false → 0 ≤ s.acc → 0 ≤ s.speed →
    andThen (tick e₁ [] s) (fun t => tick e₂ [] t) = tick (e₁ + e₂) [] s

/-- Throughput (R77, derived there; D7, log 10): over unpaused ticks of at most 50 ms each at a constant speed, the key state held
all through (log 5), the Pacer runs
floor(acc + IPMS * speed * T) steps in total, T the sum of the ticks, and keeps the rest as carry. -/
def Obligations.ThroughputOverManyTicks : Prop :=
  ∀ (es : List ℚ) (s : State), (∀ e ∈ es, 0 ≤ e ∧ e ≤ 50) → s.paused = false → 0 ≤ s.acc → s.acc < 1 → 0 ≤ s.speed →
    ∃ (n : Nat) (t u : State), n = ⌊s.acc + Config.ipms * s.speed * es.sum⌋₊ ∧
      hostRun (es.map fun e => .tick e []) s = .next t ∧ Host.Core.run Sys2Proof.core n s = .next u ∧
      t = { u with acc := s.acc + Config.ipms * s.speed * es.sum - n }

/-- While paused, ticks change nothing at all, however many there are, and the pause ends where it began (R74, R98; the kept carry is
D9's): pausing, any ticks, and resuming give back the state, unpaused. -/
def Obligations.PauseKeepsTheWholeState : Prop :=
  ∀ (ticks : List (ℚ × List KeyState)) (s : State), (∀ x ∈ ticks, 0 ≤ x.1) →
    hostRun ([.setPaused true] ++ (ticks.map fun x => .tick x.1 x.2) ++ [.setPaused false]) s = .next { s with paused := false }

/-- Speed and pause are set and nothing else changes, paused or not (R73, R74, R98; D21). -/
def Obligations.SpeedAndPauseSetOnlyThemselves : Prop :=
  (∀ (m : ℚ) (s : State), 0 ≤ m → setSpeed m s = .next { s with speed := m }) ∧
  (∀ (b : Bool) (s : State), setPaused b s = .next { s with paused := b }) ∧
  (∀ (k : KeyState) (s : State), setKeys k s = .next { s with keys := k })

/-- A host operation is refused exactly when it breaks a host precondition, a tick with e < 0 or a setSpeed with m < 0, and by that
name; every other one completes (R76, R88; D8). That a tick with e < 0 is refused while paused too, where R69's first line would
return, is the model's reading of R76 (DEDUCED, log 16). -/
def Obligations.OnlyHostPreconditionsRefuse : Prop :=
  ∀ (op : HostOp) (s : State),
    match op with
    | .tick e draws => if e < 0 then hostOp (.tick e draws) s = .refused .negativeElapsed
        else ∃ t : State, hostOp (.tick e draws) s = .next t
    | .setSpeed m => if m < 0 then hostOp (.setSpeed m) s = .refused .negativeSpeed
        else ∃ t : State, hostOp (.setSpeed m) s = .next t
    | .loadProgram bytes => ∃ t : State, hostOp (.loadProgram bytes) s = .next t
    | .setPaused b => ∃ t : State, hostOp (.setPaused b) s = .next t
    | .setKeys k => ∃ t : State, hostOp (.setKeys k) s = .next t

/-! The output extractor. -/

/-- R79 and R80: the video base is M[5] << 16 with its low 16 bits zero, and the block's pixel i, for i from 0 to 65,535, comes from
the byte at base + i, which is at most 0xFFFFFF; there are 65,536 of them. -/
def Obligations.VideoBlockReadsItsPage : Prop :=
  ∀ m : Memory, (videoBase m).toNat = (memRead m (addrIndex 5)).toNat * 65536 ∧ (video m).length = 65536 ∧
    ∀ i : Fin 65536, ∃ raw : ArrayIndex, raw.val = (videoBase m).toNat + i.val ∧ raw.val ≤ 0xFFFFFF ∧
      (video m)[i.val]? = some (colour (memRead m raw))

/-- The palette law (R81): below 216 the channels are 51 times the base-6 digits, from 216 up the pixel is opaque black; every channel
is one of 0, 51, 102, 153, 204, 255. -/
def Obligations.PaletteLaw : Prop :=
  ∀ raw : Byte,
    (raw.toNat < 216 → (colour raw).r.toNat = raw.toNat / 36 % 6 * 51 ∧ (colour raw).g.toNat = raw.toNat / 6 % 6 * 51 ∧
      (colour raw).b.toNat = raw.toNat % 6 * 51) ∧
    (216 ≤ raw.toNat → colour raw = { r := 0, g := 0, b := 0, a := 255 }) ∧
    (∀ ch ∈ [(colour raw).r.toNat, (colour raw).g.toNat, (colour raw).b.toNat], ch ∈ [0, 51, 102, 153, 204, 255])

/-- R82: alpha is 255 for every pixel, and raw values 216 to 255 give the same pixel as raw value 0. -/
def Obligations.AlphaIsOpaqueAndReservedIsBlack : Prop :=
  (∀ raw : Byte, (colour raw).a = 255) ∧ ∀ raw : Byte, 216 ≤ raw.toNat → colour raw = colour 0

/-- R83 and R84: the audio base is ((M[6] << 8) | M[7]) << 8 with its low 8 bits zero, and sample i, for i from 0 to 255, is the
two's-complement value of the byte at base + i, which is at most 0xFFFFFF; there are 256 of them. -/
def Obligations.AudioBlockReadsItsPage : Prop :=
  ∀ m : Memory,
    (audioBase m).toNat = ((memRead m (addrIndex 6)).toNat * 256 + (memRead m (addrIndex 7)).toNat) * 256 ∧
    (audio m).length = 256 ∧
    ∀ i : Fin 256, ∃ (raw : ArrayIndex) (x : Int), raw.val = (audioBase m).toNat + i.val ∧ raw.val ≤ 0xFFFFFF ∧
      (audio m)[i.val]? = some x ∧ -128 ≤ x ∧ x ≤ 127 ∧
      x = if (memRead m raw).toNat < 128 then ((memRead m raw).toNat : Int) else (memRead m raw).toNat - 256

/-- Video goes before audio and an absent sink suppresses its own block only (R78, R86; the order is D18's, the video case D14's). -/
def Obligations.AbsentSinkSuppressesOnlyItsBlock : Prop :=
  ∀ m : Memory, emissions true true m = [.video (video m), .audio (audio m)] ∧ emissions true false m = [.video (video m)] ∧
    emissions false true m = [.audio (audio m)] ∧ emissions false false m = []

/-- Extraction writes no memory, no register and no counter (R87, derived there): only the record of events grows. -/
def Obligations.ExtractionWritesNothing : Prop :=
  ∀ s : State, { s.extract with emitted := s.emitted } = s ∧
    s.extract.emitted = s.emitted ++ emissions Config.table.videoSinkPresent Config.table.audioSinkPresent s.mem

/-! Reset and the invariant. -/

/-- VM start (R20): all memory, the pad included, is zero and the speed is 1, as the source says; pc, q, frames, keys and acc are 0 and
the machine is not paused, as D5 decides; the record of events is empty (log 4). -/
def Obligations.VmStartValues : Prop :=
  (∀ i : ArrayIndex, memRead State.reset.mem i = 0) ∧ State.reset.speed = 1 ∧ State.reset.pc = 0 ∧ State.reset.q = 0 ∧
  State.reset.frames = 0 ∧ State.reset.keys = 0 ∧ State.reset.acc = 0 ∧ State.reset.paused = false ∧ State.reset.emitted = []

/-- The invariant holds at VM start. -/
def Obligations.InvariantAtReset : Prop := State.reset.Inv

/-- Every step keeps the invariant, from every state that has it: memory in its canonical form (the model's), the pad zero (R25,
derived there), the quota counter below IPF (R13), the Pacer's numbers not negative (R16). -/
def Obligations.StepKeepsTheInvariant : Prop :=
  ∀ s t : State, s.Inv → step s = .next t → t.Inv

/-- Every host operation keeps the invariant, and an unpaused tick leaves a carry below 1 (R16, R25, R71, R72). -/
def Obligations.HostOperationKeepsTheInvariant : Prop :=
  ∀ (op : HostOp) (s t : State), s.Inv → hostOp op s = .next t →
    t.Inv ∧ (∀ (e : ℚ) (draws : List KeyState), op = .tick e draws → s.paused = false → t.acc < 1)

/-- R25: every pad byte is zero in every reachable state, so a fetch that runs past 0xFFFFFF reads zeros (derived there). -/
def Obligations.PadIsZeroWheneverReachable : Prop :=
  ∀ s : State, Reachable s → s.mem.padZero ∧
    ∀ (pc : Addr) (k : Fin 9), 0x1000000 ≤ pc.toNat + k.val → memRead s.mem (fetchIndex pc k) = 0

/-! Placing a word. -/

/-- The state that stands for a loaded word runs exactly that word next (log 7): the window of its next step is the word's bytes, and
the step is that instruction run there, with the count. -/
def Obligations.PlacedWordRunsNext : Prop :=
  ∀ (s : State) (nbits w : Nat) (i : Instr), decodeTableWord nbits w = some i →
    fetchWindow (boundaryIfDue (s.withFetchWord nbits w)).mem (boundaryIfDue (s.withFetchWord nbits w)).pc = tableBytes nbits w ∧
    step (s.withFetchWord nbits w) =
      andThen (exec i (boundaryIfDue (s.withFetchWord nbits w))) fun t => .next { t with q := (t.q + 1) % 65536 }

/-! The configuration. -/

/-- The defaults of the parameter record are R5's table, the OPEN ones the free values (log 8, log 9), its sizes agree with each other,
the address and key types have its widths, and `exec`, `step` and `State.reset` are those of the table's configuration (log 18). -/
def Obligations.MachineHasTheTableConfiguration : Prop :=
  (Config.table.addrBits = 24 ∧ Config.table.memSize = 2 ^ 24 ∧ Config.table.padSize = 8 ∧ Config.table.arraySize = 0x1000008 ∧
    Config.table.fieldBytes = 3 ∧ Config.table.instrBytes = 9 ∧ Config.table.ipf = 65536 ∧ Config.table.keyBits = 16 ∧
    Config.table.pixels = 65536 ∧ Config.table.samples = 256) ∧
  Config.table.Agrees ∧ Addr = BitVec 24 ∧ KeyState = BitVec 16 ∧
  (Config.table.fps = 60 ∧ Config.table.maxElapsedMs = 50 ∧ Config.table.defaultSpeed = 1 ∧ Config.table.paletteSize = 216 ∧
    Config.table.paletteStep = 51 ∧ Config.table.addrKeyHi = 0 ∧ Config.table.addrKeyLo = 1 ∧ Config.table.addrPcVec = 2 ∧
    Config.table.addrVideoPage = 5 ∧ Config.table.addrAudioPage = 6 ∧ Config.table.qAtStart = 0 ∧
    Config.table.padReadsZero = true) ∧
  (Config.table.audioSinkPresent = FreeValue.audioSinkPresent ∧ Config.table.videoSinkPresent = FreeValue.videoSinkPresent ∧
    Config.table.videoLayout = FreeValue.videoLayout) ∧
  (∀ (i : Instr) (s : State), exec i s = execUnder .table i s) ∧ (∀ s : State, step s = stepUnder .table s) ∧
  State.reset = State.atStart .table

/-- A step under ANY configuration whose sizes agree with each other, which is the model's predicate `Config.Agrees` (log 18; R5, R56):
the boundary phase when q = 0, then R48's pseudocode, then q + 1 modulo IPF, all of them under that configuration, the modulo reading of
C1 among them. -/
def Obligations.StepUnderEveryConfiguration : Prop :=
  ∀ (cfg : Config) (s : State), cfg.Agrees →
    stepUnder cfg s = .next ((executeOne (boundaryIfDue s cfg) cfg).countInstruction cfg) ∧
    ((executeOne (boundaryIfDue s cfg) cfg).countInstruction cfg).q = (s.q + 1) % cfg.ipf

/-- PAD_READS_ZERO, in every configuration whose sizes agree (log 18; R5, R23, C1, D1): byte pc + k is the addressed byte below MEM_SIZE; at or above it, it is the byte at
pc + k - MEM_SIZE where the parameter is false, and zero, given a zero pad, where it is true. So the instruction at 0xFFFFFF has its other
eight bytes at 0 to 7 under the modulo reading, and for pc up to 0xFFFFF7 an instruction does the same under every such
configuration. -/
def Obligations.PadReadingsDifferOnlyPastTheTop : Prop :=
  (∀ (cfg : Config) (m : Memory) (pc : Addr) (k : Nat), cfg.Agrees → k < cfg.instrBytes →
    (pc.toNat + k < 16777216 → memRead m (fetchIndex pc k) cfg = m.read (pc.toNat + k)) ∧
    (16777216 ≤ pc.toNat + k → cfg.padReadsZero = false →
      memRead m (fetchIndex pc k) cfg = m.read (pc.toNat + k - 16777216)) ∧
    (16777216 ≤ pc.toNat + k → cfg.padReadsZero = true → m.padZero cfg → memRead m (fetchIndex pc k) cfg = 0)) ∧
  (∀ (cfg : Config) (m : Memory), cfg.Agrees → cfg.padReadsZero = false →
    decode (fetchWindow m 0xFFFFFF cfg) cfg = .ok (.cbj (joinField (m.read 0xFFFFFF) (m.read 0) (m.read 1))
      (joinField (m.read 2) (m.read 3) (m.read 4)) (joinField (m.read 5) (m.read 6) (m.read 7)), [])) ∧
  (∀ (cfg : Config) (s : State), cfg.Agrees → s.pc.toNat ≤ 0xFFFFF7 → executeOne s cfg = executeOne s)

/-! A tick in which the keys change, and the machine with nothing loaded. -/

/-- An unpaused tick whatever key states the host holds during it (R58, R69, R72, R90 item 6; D6, log 5; exact by D7, log 10): it is
floor(acc + IPMS * speed * min(e, 50)) single-instruction steps through states u 0, u 1, .., and the step at a state with q = 0 finds
as key state the draw whose number is that of the tick's boundaries before it (the last key state once the draws are used up). That
boundary latches this draw into bytes 0 and 1, and memory and PC after the step are those of R48's pseudocode run from there. -/
def Obligations.TickLatchesEachDraw : Prop :=
  ∀ (e : ℚ) (draws : List KeyState) (s : State), 0 ≤ e → s.paused = false → 0 ≤ s.acc → 0 ≤ s.speed →
    ∃ (n : Nat) (u : Nat → State), n = ⌊s.acc + Config.ipms * s.speed * min e 50⌋₊ ∧ u 0 = s ∧
      tick e draws s = .next { u n with acc := s.acc + Config.ipms * s.speed * min e 50 - n } ∧
      ∀ j < n,
        ((u j).q ≠ 0 → step (u j) = .next (u (j + 1))) ∧
        ((u j).q = 0 → ∃ k : KeyState, k = draws.getD ((u j).frames - s.frames) (u j).keys ∧
          step { u j with keys := k } = .next (u (j + 1)) ∧
          memRead (boundary { u j with keys := k }).mem (addrIndex 0) = k.extractLsb' 8 8 ∧
          memRead (boundary { u j with keys := k }).mem (addrIndex 1) = k.extractLsb' 0 8 ∧
          (u (j + 1)).mem = (executeOne (boundary { u j with keys := k })).mem ∧
          (u (j + 1)).pc = (executeOne (boundary { u j with keys := k })).pc)

/-- The step lemma of R99 (derived there): a machine with nothing loaded (pc 0, every byte zero but the two key bytes, and byte 0 zero
unless a boundary is due) steps to such a machine, whatever the host's key state. Byte 1 changes at a boundary only, to the low key
byte. VM start is such a machine (its pc and q are D5's). -/
def Obligations.IdleMachineStaysIdle : Prop :=
  State.reset.idle ∧
  ∀ s t : State, s.idle → step s = .next t →
    t.idle ∧ memRead t.mem (addrIndex 1) = if s.q = 0 then s.keys.extractLsb' 0 8 else memRead s.mem (addrIndex 1)

/-! The sizes. -/

/-- No access falls outside the array, whatever the parameters, as long as the sizes agree (R5, R32): every byte of a fetch is in the
array, and so is every byte of the PC reload field; every byte of a video or audio block and every data byte is in the address space.
Which sizes agree is the model's predicate (log 18). -/
def Obligations.AgreeingSizesKeepAccessesInTheArray : Prop :=
  ∀ (cfg : Config) (m : Memory), cfg.Agrees →
    (∀ (pc : Addr) (k : Nat), k < cfg.instrBytes → fetchIndex pc k < cfg.arraySize) ∧
    (∀ i : Nat, i < cfg.pixels → pixelIndex m i cfg < cfg.memSize) ∧
    (∀ i : Nat, i < cfg.samples → sampleIndex m i cfg < cfg.memSize) ∧
    (∀ a : Addr, addrIndex a < cfg.memSize) ∧
    (∀ j : Nat, j < cfg.fieldBytes → fetchIndex (toAddr cfg.addrPcVec) j < cfg.arraySize)
end

