-- ==== Sys2Proof/Laws/Memory.lean ====
section
/-! SUPPORT. The laws of memory: a read after a write, every other byte kept, and the canonical form kept by every operation. -/

namespace Sys2Proof.Machine.Memory

@[simp] theorem read_nil (a : Nat) : read [] a = 0 := rfl

theorem read_filter_ne (m : Memory) (a b : Nat) (h : b ≠ a) : read (m.filter fun c => c.1 != a) b = read m b := by
  induction m with
  | nil => rfl
  | cons c rest ih =>
    obtain ⟨k, v⟩ := c
    by_cases hk : k = a
    · have : k ≠ b := fun e => h (e.symm.trans hk)
      simp [read, hk, ih]
      simp [← hk, this]
    · simp [read, hk, ih]

theorem read_filter_self (m : Memory) (a : Nat) : read (m.filter fun c => c.1 != a) a = 0 := by
  induction m with
  | nil => rfl
  | cons c rest ih =>
    obtain ⟨k, v⟩ := c
    by_cases hk : k = a
    · simpa [List.filter_cons, hk] using ih
    · simpa [List.filter_cons, read, hk] using ih

theorem read_insert_self (m : Memory) (a : Nat) (v : Byte) (h : ∀ c ∈ m, c.1 ≠ a) : read (insert a v m) a = v := by
  induction m with
  | nil => simp [insert, read]
  | cons c rest ih =>
    obtain ⟨k, w⟩ := c
    have hk : k ≠ a := h (k, w) (by simp)
    simp only [insert]
    split
    · simp [read]
    · simp [read, hk, ih fun c hc => h c (by simp [hc])]

theorem read_insert_other (m : Memory) (a b : Nat) (v : Byte) (h : b ≠ a) : read (insert a v m) b = read m b := by
  induction m with
  | nil => simp [insert, read, Ne.symm h, unlisted]
  | cons c rest ih =>
    obtain ⟨k, w⟩ := c
    simp only [insert]
    split
    · simp [read, Ne.symm h]
    · simp [read, ih]

/-- A read of the byte just written gives the value written (R24). -/
@[simp] theorem read_write_same (m : Memory) (a : Nat) (v : Byte) : read (write m a v) a = v := by
  simp only [write]
  split
  · next h => rw [read_filter_self, h]; rfl
  · exact read_insert_self _ _ _ (by simp)

/-- A write changes no other byte (R24). -/
theorem read_write_other (m : Memory) (a b : Nat) (v : Byte) (h : b ≠ a) : read (write m a v) b = read m b := by
  simp only [write]
  split
  · exact read_filter_ne m a b h
  · rw [read_insert_other _ _ _ _ h, read_filter_ne m a b h]

theorem read_write (m : Memory) (a b : Nat) (v : Byte) : read (write m a v) b = if b = a then v else read m b := by
  split
  · next h => rw [h, read_write_same]
  · next h => exact read_write_other m a b v h

theorem read_writeBytes (m : Memory) (a : Nat) (bytes : List Byte) (b : Nat) :
    read (writeBytes m a bytes) b = if h : a ≤ b ∧ b - a < bytes.length then bytes[b - a] else read m b := by
  induction bytes generalizing m a with
  | nil => simp [writeBytes]
  | cons v rest ih =>
    rw [writeBytes, ih, read_write]
    by_cases hb : b = a
    · subst hb; simp
    · by_cases h : a < b
      · have e : b - a = (b - (a + 1)) + 1 := by omega
        simp [hb, e]
        grind
      · simp [hb, show ¬ a ≤ b by omega, show ¬ a + 1 ≤ b by omega]

/-! The canonical form. -/

@[simp] theorem wf_nil : wf [] = true := rfl

theorem wf_cons {k : Nat} {v : Byte} {rest : Memory} :
    wf ((k, v) :: rest) = true ↔ k < Config.table.arraySize ∧ v ≠ 0 ∧ (∀ c ∈ rest, k < c.1) ∧ wf rest = true := by
  simp only [wf, Bool.and_eq_true, decide_eq_true_iff, List.all_eq_true, and_assoc]; rfl

theorem wf_filter (m : Memory) (p : Host.Cell → Bool) (h : wf m = true) : wf (m.filter p) = true := by
  induction m with
  | nil => rfl
  | cons c rest ih =>
    obtain ⟨k, v⟩ := c
    obtain ⟨h₁, h₂, h₃, h₄⟩ := wf_cons.1 h
    simp only [List.filter_cons]
    split
    · exact wf_cons.2 ⟨h₁, h₂, fun c hc => h₃ c (List.mem_filter.1 hc).1, ih h₄⟩
    · exact ih h₄

theorem mem_insert {a : Nat} {v : Byte} {m : Memory} {c : Host.Cell} (h : c ∈ insert a v m) : c = (a, v) ∨ c ∈ m := by
  induction m with
  | nil => simpa [insert] using h
  | cons d rest ih =>
    simp only [insert] at h
    split at h
    · simpa using h
    · rcases List.mem_cons.1 h with h | h
      · exact .inr (by simp [h])
      · rcases ih h with h | h
        · exact .inl h
        · exact .inr (by simp [h])

theorem wf_insert (m : Memory) (a : Nat) (v : Byte) (ha : a < Config.table.arraySize) (hv : v ≠ 0) (hm : ∀ c ∈ m, c.1 ≠ a)
    (h : wf m = true) : wf (insert a v m) = true := by
  induction m with
  | nil => exact wf_cons.2 ⟨ha, hv, by simp, rfl⟩
  | cons c rest ih =>
    obtain ⟨k, w⟩ := c
    obtain ⟨h₁, h₂, h₃, h₄⟩ := wf_cons.1 h
    simp only [insert]
    split
    · next hk =>
      refine wf_cons.2 ⟨ha, hv, fun c hc => ?_, h⟩
      rcases List.mem_cons.1 hc with rfl | hc
      · exact hk
      · exact Nat.lt_trans hk (h₃ c hc)
    · next hk =>
      have hne : k ≠ a := hm (k, w) (by simp)
      refine wf_cons.2 ⟨h₁, h₂, fun c hc => ?_, ih (fun c hc => hm c (by simp [hc])) h₄⟩
      rcases mem_insert hc with rfl | hc
      · show k < a
        omega
      · exact h₃ c hc

/-- A write inside the array keeps the canonical form. -/
theorem wf_write (m : Memory) (a : Nat) (v : Byte) (ha : a < Config.table.arraySize) (h : wf m = true) : wf (write m a v) = true := by
  have hf := wf_filter m (fun c => c.1 != a) h
  simp only [write]
  split
  · exact hf
  · next hv => exact wf_insert _ _ _ ha hv (by simp) hf

theorem wf_writeBytes (m : Memory) (a : Nat) (bytes : List Byte) (ha : a + bytes.length ≤ Config.table.arraySize) (h : wf m = true) :
    wf (writeBytes m a bytes) = true := by
  induction bytes generalizing m a with
  | nil => exact h
  | cons v rest ih =>
    simp only [List.length_cons] at ha
    exact ih _ _ (by omega) (wf_write m a v (by omega) h)

theorem le_of_mem_ofBytes {a : Nat} {bytes : List Byte} {c : Host.Cell} (h : c ∈ ofBytes a bytes) : a ≤ c.1 := by
  induction bytes generalizing a with
  | nil => simp [ofBytes] at h
  | cons v rest ih =>
    simp only [ofBytes] at h
    split at h
    · exact Nat.le_of_succ_le (ih h)
    · rcases List.mem_cons.1 h with rfl | h
      · exact Nat.le_refl a
      · exact Nat.le_of_succ_le (ih h)

/-- A loaded array is in the canonical form. -/
theorem wf_ofBytes (a : Nat) (bytes : List Byte) (ha : a + bytes.length ≤ Config.table.arraySize) : wf (ofBytes a bytes) = true := by
  induction bytes generalizing a with
  | nil => rfl
  | cons v rest ih =>
    simp only [List.length_cons] at ha
    simp only [ofBytes]
    split
    · exact ih _ (by omega)
    · next hv => exact wf_cons.2 ⟨by omega, hv, fun c hc => le_of_mem_ofBytes hc, ih _ (by omega)⟩

theorem read_ofBytes (a : Nat) (bytes : List Byte) (b : Nat) :
    read (ofBytes a bytes) b = if h : a ≤ b ∧ b - a < bytes.length then bytes[b - a] else 0 := by
  induction bytes generalizing a with
  | nil => simp [ofBytes]
  | cons v rest ih =>
    have key : read (ofBytes a (v :: rest)) b = if a = b then v else read (ofBytes (a + 1) rest) b := by
      simp only [ofBytes]
      split
      · next hv =>
        split
        · next e => subst e; rw [ih]; simp [hv, unlisted]
        · rfl
      · simp [read]
    rw [key, ih]
    by_cases hb : a = b
    · subst hb; simp
    · by_cases h : a < b
      · have e : b - a = (b - (a + 1)) + 1 := by omega
        simp [hb, e]
        grind
      · simp [hb, show ¬ a ≤ b by omega, show ¬ a + 1 ≤ b by omega]

/-- The memory of a load is in the canonical form. -/
theorem wf_imageMemory (bytes : List Byte) : wf (imageMemory bytes) = true :=
  wf_ofBytes 0 _ (by
    rw [List.length_take]
    show 0 + min 16777216 bytes.length ≤ 16777224
    omega)

/-- A byte below the first listed index reads zero. -/
theorem read_eq_zero_of_lt {m : Memory} {a : Nat} (h : ∀ c ∈ m, a < c.1) : read m a = 0 := by
  induction m with
  | nil => rfl
  | cons c rest ih =>
    obtain ⟨k, v⟩ := c
    have hk : a < k := h (k, v) (by simp)
    rw [read, if_neg (by omega), ih fun c hc => h c (by simp [hc])]

/-- Two memories in the canonical form that read alike everywhere are the same data. -/
theorem ext_of_read {m n : Memory} (hm : wf m = true) (hn : wf n = true) (h : ∀ a, read m a = read n a) : m = n := by
  induction m generalizing n with
  | nil =>
    cases n with
    | nil => rfl
    | cons d rest =>
      obtain ⟨k, v⟩ := d
      have := h k
      simp [read] at this
      exact absurd this.symm (wf_cons.1 hn).2.1
  | cons c rest ih =>
    obtain ⟨k, v⟩ := c
    obtain ⟨-, hv, hlt, hrest⟩ := wf_cons.1 hm
    cases n with
    | nil =>
      have := h k
      simp [read] at this
      exact absurd this hv
    | cons d rest' =>
      obtain ⟨k', v'⟩ := d
      obtain ⟨-, hv', hlt', hrest'⟩ := wf_cons.1 hn
      have hkk : k = k' := by
        rcases Nat.lt_trichotomy k k' with hl | he | hl
        · have h0 : read ((k', v') :: rest') k = 0 := read_eq_zero_of_lt fun c hc => by
            rcases List.mem_cons.1 hc with rfl | hc
            · exact hl
            · exact Nat.lt_trans hl (hlt' c hc)
          have := h k
          rw [h0] at this
          simp [read] at this
          exact absurd this hv
        · exact he
        · have h0 : read ((k, v) :: rest) k' = 0 := read_eq_zero_of_lt fun c hc => by
            rcases List.mem_cons.1 hc with rfl | hc
            · exact hl
            · exact Nat.lt_trans hl (hlt c hc)
          have := h k'
          rw [h0] at this
          simp [read] at this
          exact absurd this.symm hv'
      subst hkk
      have hvv : v = v' := by simpa [read] using h k
      subst hvv
      congr 1
      refine ih hrest hrest' fun a => ?_
      by_cases ha : k = a
      · subst ha
        rw [read_eq_zero_of_lt hlt, read_eq_zero_of_lt hlt']
      · simpa [read, ha] using h a

/-- Memory at VM start has the canonical form. -/
theorem wf_reset : wf State.reset.mem = true := rfl

end Sys2Proof.Machine.Memory
end

