-- ==== Sys2Proof/Laws/State.lean ====
section
/-! SUPPORT. What each named operation does to each field of the state: the field it writes, and every other field unchanged. -/

namespace Sys2Proof

/-! The table's configuration, value by value (R5). -/

@[simp] theorem Config.table_addrBits : Config.table.addrBits = 24 := rfl
@[simp] theorem Config.table_memSize : Config.table.memSize = 16777216 := rfl
@[simp] theorem Config.table_padSize : Config.table.padSize = 8 := rfl
@[simp] theorem Config.table_arraySize : Config.table.arraySize = 16777224 := rfl
@[simp] theorem Config.table_fieldBytes : Config.table.fieldBytes = 3 := rfl
@[simp] theorem Config.table_instrBytes : Config.table.instrBytes = 9 := rfl
@[simp] theorem Config.table_ipf : Config.table.ipf = 65536 := rfl
@[simp] theorem Config.table_keyBits : Config.table.keyBits = 16 := rfl
@[simp] theorem Config.table_pixels : Config.table.pixels = 65536 := rfl
@[simp] theorem Config.table_samples : Config.table.samples = 256 := rfl
@[simp] theorem Config.table_fps : Config.table.fps = 60 := rfl
@[simp] theorem Config.table_maxElapsedMs : Config.table.maxElapsedMs = 50 := rfl
@[simp] theorem Config.table_defaultSpeed : Config.table.defaultSpeed = 1 := rfl
@[simp] theorem Config.table_paletteSize : Config.table.paletteSize = 216 := rfl
@[simp] theorem Config.table_paletteStep : Config.table.paletteStep = 51 := rfl
@[simp] theorem Config.table_addrKeyHi : Config.table.addrKeyHi = 0 := rfl
@[simp] theorem Config.table_addrKeyLo : Config.table.addrKeyLo = 1 := rfl
@[simp] theorem Config.table_addrPcVec : Config.table.addrPcVec = 2 := rfl
@[simp] theorem Config.table_addrVideoPage : Config.table.addrVideoPage = 5 := rfl
@[simp] theorem Config.table_addrAudioPage : Config.table.addrAudioPage = 6 := rfl
@[simp] theorem Config.table_qAtStart : Config.table.qAtStart = 0 := rfl
@[simp] theorem Config.table_padReadsZero : Config.table.padReadsZero = true := rfl

/-- The table's sizes agree (R5). -/
theorem Config.table_agrees : Config.table.Agrees :=
  ⟨rfl, rfl, rfl, rfl, rfl, by decide, by decide, by decide, by decide, by decide⟩

/-! What agreeing sizes fix: the address space, a field and an instruction. -/

theorem Config.Agrees.memSize_eq {cfg : Config} (h : cfg.Agrees) : cfg.memSize = 16777216 :=
  h.mem_size.trans (congrArg (2 ^ ·) h.addr_width)

theorem Config.Agrees.fieldBytes_eq {cfg : Config} (h : cfg.Agrees) : cfg.fieldBytes = 3 := by
  have hf : 8 * cfg.fieldBytes = 24 := h.field_bytes.trans h.addr_width
  omega

theorem Config.Agrees.instrBytes_eq {cfg : Config} (h : cfg.Agrees) : cfg.instrBytes = 9 := by rw [h.instr_bytes, h.fieldBytes_eq]

theorem Config.Agrees.arraySize_ge {cfg : Config} (h : cfg.Agrees) : 16777224 ≤ cfg.arraySize := by
  have hp := h.pad_size
  rw [h.instrBytes_eq] at hp
  rw [Config.arraySize, h.memSize_eq]
  omega

/-- An address is below MEM_SIZE (R6, R32). -/
theorem addr_toNat_lt (a : Addr) : a.toNat < 16777216 := a.isLt

end Sys2Proof

namespace Sys2Proof.Machine

/-! VM start (R20). -/

@[simp] theorem State.reset_mem : State.reset.mem = [] := rfl
@[simp] theorem State.reset_pc : State.reset.pc = 0 := rfl
@[simp] theorem State.reset_q : State.reset.q = 0 := rfl
@[simp] theorem State.reset_frames : State.reset.frames = 0 := rfl
@[simp] theorem State.reset_keys : State.reset.keys = 0 := rfl
@[simp] theorem State.reset_acc : State.reset.acc = 0 := rfl
@[simp] theorem State.reset_speed : State.reset.speed = 1 := rfl
@[simp] theorem State.reset_paused : State.reset.paused = false := rfl
@[simp] theorem State.reset_emitted : State.reset.emitted = [] := rfl

variable (s : State) (cfg : Config)

/-! `State.jumpTo` writes the program counter. -/

@[simp] theorem State.jumpTo_mem (target : Addr) : (s.jumpTo target).mem = s.mem := rfl
@[simp] theorem State.jumpTo_pc (target : Addr) : (s.jumpTo target).pc = target := rfl
@[simp] theorem State.jumpTo_q (target : Addr) : (s.jumpTo target).q = s.q := rfl
@[simp] theorem State.jumpTo_frames (target : Addr) : (s.jumpTo target).frames = s.frames := rfl
@[simp] theorem State.jumpTo_keys (target : Addr) : (s.jumpTo target).keys = s.keys := rfl
@[simp] theorem State.jumpTo_acc (target : Addr) : (s.jumpTo target).acc = s.acc := rfl
@[simp] theorem State.jumpTo_speed (target : Addr) : (s.jumpTo target).speed = s.speed := rfl
@[simp] theorem State.jumpTo_paused (target : Addr) : (s.jumpTo target).paused = s.paused := rfl
@[simp] theorem State.jumpTo_emitted (target : Addr) : (s.jumpTo target).emitted = s.emitted := rfl

/-! `State.countInstruction` writes the quota counter. -/

@[simp] theorem State.countInstruction_mem : (s.countInstruction cfg).mem = s.mem := rfl
@[simp] theorem State.countInstruction_pc : (s.countInstruction cfg).pc = s.pc := rfl
@[simp] theorem State.countInstruction_q : (s.countInstruction cfg).q = (s.q + 1) % cfg.ipf := rfl
@[simp] theorem State.countInstruction_frames : (s.countInstruction cfg).frames = s.frames := rfl
@[simp] theorem State.countInstruction_keys : (s.countInstruction cfg).keys = s.keys := rfl
@[simp] theorem State.countInstruction_acc : (s.countInstruction cfg).acc = s.acc := rfl
@[simp] theorem State.countInstruction_speed : (s.countInstruction cfg).speed = s.speed := rfl
@[simp] theorem State.countInstruction_paused : (s.countInstruction cfg).paused = s.paused := rfl
@[simp] theorem State.countInstruction_emitted : (s.countInstruction cfg).emitted = s.emitted := rfl

/-! `State.writeData` writes memory. -/

@[simp] theorem State.writeData_mem (b : Addr) (v : Byte) : (s.writeData b v).mem = memWrite s.mem b v := rfl
@[simp] theorem State.writeData_pc (b : Addr) (v : Byte) : (s.writeData b v).pc = s.pc := rfl
@[simp] theorem State.writeData_q (b : Addr) (v : Byte) : (s.writeData b v).q = s.q := rfl
@[simp] theorem State.writeData_frames (b : Addr) (v : Byte) : (s.writeData b v).frames = s.frames := rfl
@[simp] theorem State.writeData_keys (b : Addr) (v : Byte) : (s.writeData b v).keys = s.keys := rfl
@[simp] theorem State.writeData_acc (b : Addr) (v : Byte) : (s.writeData b v).acc = s.acc := rfl
@[simp] theorem State.writeData_speed (b : Addr) (v : Byte) : (s.writeData b v).speed = s.speed := rfl
@[simp] theorem State.writeData_paused (b : Addr) (v : Byte) : (s.writeData b v).paused = s.paused := rfl
@[simp] theorem State.writeData_emitted (b : Addr) (v : Byte) : (s.writeData b v).emitted = s.emitted := rfl

/-! `State.extract` writes the record of events (R87). -/

@[simp] theorem State.extract_mem : (s.extract cfg).mem = s.mem := rfl
@[simp] theorem State.extract_pc : (s.extract cfg).pc = s.pc := rfl
@[simp] theorem State.extract_q : (s.extract cfg).q = s.q := rfl
@[simp] theorem State.extract_frames : (s.extract cfg).frames = s.frames := rfl
@[simp] theorem State.extract_keys : (s.extract cfg).keys = s.keys := rfl
@[simp] theorem State.extract_acc : (s.extract cfg).acc = s.acc := rfl
@[simp] theorem State.extract_speed : (s.extract cfg).speed = s.speed := rfl
@[simp] theorem State.extract_paused : (s.extract cfg).paused = s.paused := rfl
@[simp] theorem State.extract_emitted : (s.extract cfg).emitted = s.emitted ++ emissions cfg.videoSinkPresent cfg.audioSinkPresent s.mem cfg := rfl

/-! `State.latchKeys` writes memory. -/

@[simp] theorem State.latchKeys_mem : (s.latchKeys cfg).mem = memWrite (memWrite s.mem (toAddr cfg.addrKeyHi) (keysHigh s.keys)) (toAddr cfg.addrKeyLo) (keysLow s.keys) := rfl
@[simp] theorem State.latchKeys_pc : (s.latchKeys cfg).pc = s.pc := rfl
@[simp] theorem State.latchKeys_q : (s.latchKeys cfg).q = s.q := rfl
@[simp] theorem State.latchKeys_frames : (s.latchKeys cfg).frames = s.frames := rfl
@[simp] theorem State.latchKeys_keys : (s.latchKeys cfg).keys = s.keys := rfl
@[simp] theorem State.latchKeys_acc : (s.latchKeys cfg).acc = s.acc := rfl
@[simp] theorem State.latchKeys_speed : (s.latchKeys cfg).speed = s.speed := rfl
@[simp] theorem State.latchKeys_paused : (s.latchKeys cfg).paused = s.paused := rfl
@[simp] theorem State.latchKeys_emitted : (s.latchKeys cfg).emitted = s.emitted := rfl

/-! `State.reloadPc` writes the program counter. -/

@[simp] theorem State.reloadPc_mem : (s.reloadPc cfg).mem = s.mem := rfl
@[simp] theorem State.reloadPc_pc : (s.reloadPc cfg).pc = rd24 s.mem (toAddr cfg.addrPcVec) 0 cfg := rfl
@[simp] theorem State.reloadPc_q : (s.reloadPc cfg).q = s.q := rfl
@[simp] theorem State.reloadPc_frames : (s.reloadPc cfg).frames = s.frames := rfl
@[simp] theorem State.reloadPc_keys : (s.reloadPc cfg).keys = s.keys := rfl
@[simp] theorem State.reloadPc_acc : (s.reloadPc cfg).acc = s.acc := rfl
@[simp] theorem State.reloadPc_speed : (s.reloadPc cfg).speed = s.speed := rfl
@[simp] theorem State.reloadPc_paused : (s.reloadPc cfg).paused = s.paused := rfl
@[simp] theorem State.reloadPc_emitted : (s.reloadPc cfg).emitted = s.emitted := rfl

/-! `State.countFrame` writes the frame counter. -/

@[simp] theorem State.countFrame_mem : s.countFrame.mem = s.mem := rfl
@[simp] theorem State.countFrame_pc : s.countFrame.pc = s.pc := rfl
@[simp] theorem State.countFrame_q : s.countFrame.q = s.q := rfl
@[simp] theorem State.countFrame_frames : s.countFrame.frames = s.frames + 1 := rfl
@[simp] theorem State.countFrame_keys : s.countFrame.keys = s.keys := rfl
@[simp] theorem State.countFrame_acc : s.countFrame.acc = s.acc := rfl
@[simp] theorem State.countFrame_speed : s.countFrame.speed = s.speed := rfl
@[simp] theorem State.countFrame_paused : s.countFrame.paused = s.paused := rfl
@[simp] theorem State.countFrame_emitted : s.countFrame.emitted = s.emitted := rfl

/-! `State.accumulate` writes the carry. -/

@[simp] theorem State.accumulate_mem (e : ℚ) : (s.accumulate e cfg).mem = s.mem := rfl
@[simp] theorem State.accumulate_pc (e : ℚ) : (s.accumulate e cfg).pc = s.pc := rfl
@[simp] theorem State.accumulate_q (e : ℚ) : (s.accumulate e cfg).q = s.q := rfl
@[simp] theorem State.accumulate_frames (e : ℚ) : (s.accumulate e cfg).frames = s.frames := rfl
@[simp] theorem State.accumulate_keys (e : ℚ) : (s.accumulate e cfg).keys = s.keys := rfl
@[simp] theorem State.accumulate_acc (e : ℚ) : (s.accumulate e cfg).acc = s.acc + cfg.ipms * s.speed * clampElapsed e cfg := rfl
@[simp] theorem State.accumulate_speed (e : ℚ) : (s.accumulate e cfg).speed = s.speed := rfl
@[simp] theorem State.accumulate_paused (e : ℚ) : (s.accumulate e cfg).paused = s.paused := rfl
@[simp] theorem State.accumulate_emitted (e : ℚ) : (s.accumulate e cfg).emitted = s.emitted := rfl

/-! `State.spend` writes the carry. -/

@[simp] theorem State.spend_mem : s.spend.mem = s.mem := rfl
@[simp] theorem State.spend_pc : s.spend.pc = s.pc := rfl
@[simp] theorem State.spend_q : s.spend.q = s.q := rfl
@[simp] theorem State.spend_frames : s.spend.frames = s.frames := rfl
@[simp] theorem State.spend_keys : s.spend.keys = s.keys := rfl
@[simp] theorem State.spend_acc : s.spend.acc = s.acc - 1 := rfl
@[simp] theorem State.spend_speed : s.spend.speed = s.speed := rfl
@[simp] theorem State.spend_paused : s.spend.paused = s.paused := rfl
@[simp] theorem State.spend_emitted : s.spend.emitted = s.emitted := rfl

/-! `State.sampleKeys` writes the key state. -/

@[simp] theorem State.sampleKeys_mem (draws : List KeyState) : (s.sampleKeys draws).mem = s.mem := rfl
@[simp] theorem State.sampleKeys_pc (draws : List KeyState) : (s.sampleKeys draws).pc = s.pc := rfl
@[simp] theorem State.sampleKeys_q (draws : List KeyState) : (s.sampleKeys draws).q = s.q := rfl
@[simp] theorem State.sampleKeys_frames (draws : List KeyState) : (s.sampleKeys draws).frames = s.frames := rfl
@[simp] theorem State.sampleKeys_keys (draws : List KeyState) : (s.sampleKeys draws).keys = if s.q = 0 then draws.headD s.keys else s.keys := rfl
@[simp] theorem State.sampleKeys_acc (draws : List KeyState) : (s.sampleKeys draws).acc = s.acc := rfl
@[simp] theorem State.sampleKeys_speed (draws : List KeyState) : (s.sampleKeys draws).speed = s.speed := rfl
@[simp] theorem State.sampleKeys_paused (draws : List KeyState) : (s.sampleKeys draws).paused = s.paused := rfl
@[simp] theorem State.sampleKeys_emitted (draws : List KeyState) : (s.sampleKeys draws).emitted = s.emitted := rfl

/-! `boundary` writes memory, the program counter, the frame counter and the record of events (R57). -/

@[simp] theorem boundary_mem : (boundary s cfg).mem = (s.latchKeys cfg).mem := rfl
@[simp] theorem boundary_pc : (boundary s cfg).pc = rd24 (s.latchKeys cfg).mem (toAddr cfg.addrPcVec) 0 cfg := rfl
@[simp] theorem boundary_q : (boundary s cfg).q = s.q := rfl
@[simp] theorem boundary_frames : (boundary s cfg).frames = s.frames + 1 := rfl
@[simp] theorem boundary_keys : (boundary s cfg).keys = s.keys := rfl
@[simp] theorem boundary_acc : (boundary s cfg).acc = s.acc := rfl
@[simp] theorem boundary_speed : (boundary s cfg).speed = s.speed := rfl
@[simp] theorem boundary_paused : (boundary s cfg).paused = s.paused := rfl
@[simp] theorem boundary_emitted : (boundary s cfg).emitted = (s.extract cfg).emitted := rfl

end Sys2Proof.Machine
end

