-- ==== Sys2Proof/Laws/Ops.lean ====
section
/-! SUPPORT. What the shared operations do: reads and writes of memory, fields, the fetch window, the decoder. -/

namespace Sys2Proof

/-! Byte strings and values (R26, R27). -/

theorem bytesValue_append (bytes : List Byte) (b : Byte) : bytesValue (bytes ++ [b]) = bytesValue bytes * 256 + b.toNat := by
  simp [bytesValue]

theorem bytesValue_cons (b : Byte) (bytes : List Byte) :
    bytesValue (b :: bytes) = b.toNat * 256 ^ bytes.length + bytesValue bytes := by
  induction bytes using List.reverseRecOn with
  | nil => simp [bytesValue]
  | append_singleton bytes c ih =>
    rw [← List.cons_append, bytesValue_append, ih, bytesValue_append, List.length_append, List.length_singleton, pow_succ]
    ring

theorem bytesValue_lt (bytes : List Byte) : bytesValue bytes < 256 ^ bytes.length := by
  induction bytes with
  | nil => simp [bytesValue]
  | cons b bytes ih =>
    have hb := b.isLt
    rw [bytesValue_cons, List.length_cons, pow_succ]
    nlinarith

@[simp] theorem valueBytes_length (n v : Nat) : (valueBytes n v).length = n := by
  induction n with
  | zero => rfl
  | succ n ih => simp [valueBytes, ih]

/-- A byte string is the bytes of its value. -/
theorem valueBytes_bytesValue (bytes : List Byte) : valueBytes bytes.length (bytesValue bytes) = bytes := by
  have key : ∀ (n v w : Nat), valueBytes n (w * 256 ^ n + v) = valueBytes n v := by
    intro n
    induction n with
    | zero => intros; rfl
    | succ n ih =>
      intro v w
      have e : w * 256 ^ (n + 1) + v = (w * 256) * 256 ^ n + v := by ring
      rw [valueBytes, valueBytes, e, ih]
      congr 1
      apply BitVec.eq_of_toNat_eq
      rw [BitVec.toNat_ofNat, BitVec.toNat_ofNat, Nat.mul_comm, Nat.mul_add_div (by positivity)]
      omega
  induction bytes with
  | nil => rfl
  | cons b bytes ih =>
    have hb := b.isLt
    rw [List.length_cons, valueBytes, bytesValue_cons, key, ih]
    congr 1
    apply BitVec.eq_of_toNat_eq
    rw [BitVec.toNat_ofNat, Nat.mul_comm, Nat.mul_add_div (by positivity), Nat.div_eq_of_lt (bytesValue_lt bytes), Nat.add_zero]
    omega

/-- The bytes of a field's value are the bytes it was joined from, where the field has room for them. -/
theorem fieldBytes_joinBytes {bytes : List Byte} {cfg : Config} (hl : bytes.length = cfg.fieldBytes) (hw : 8 * cfg.fieldBytes = addrBits) :
    fieldBytes (joinBytes bytes) cfg = bytes := by
  have e : (256 : Nat) ^ bytes.length = 2 ^ addrBits := by
    rw [hl, ← hw, Nat.pow_mul]
  rw [fieldBytes, joinBytes, BitVec.toNat_ofNat, Nat.mod_eq_of_lt (e ▸ bytesValue_lt bytes), ← hl, valueBytes_bytesValue]

/-! Fields and their bytes (R26, R27, R40). -/

/-- The value of a field from its three bytes (R26). -/
theorem joinField_toNat (h m l : Byte) : (joinField h m l).toNat = h.toNat * 65536 + m.toNat * 256 + l.toNat := by
  have hh := h.isLt
  have hm := m.isLt
  have hl := l.isLt
  show (((0 * 256 + h.toNat) * 256 + m.toNat) * 256 + l.toNat) % 16777216 = _
  omega

@[simp] theorem fieldHigh_join (h m l : Byte) : fieldHigh (joinField h m l) = h := by
  apply BitVec.eq_of_toNat_eq
  have hm := m.isLt
  have hl := l.isLt
  rw [fieldHigh, BitVec.extractLsb'_toNat, joinField_toNat, Nat.shiftRight_eq_div_pow]
  omega
@[simp] theorem fieldMid_join (h m l : Byte) : fieldMid (joinField h m l) = m := by
  apply BitVec.eq_of_toNat_eq
  have hm := m.isLt
  have hl := l.isLt
  rw [fieldMid, BitVec.extractLsb'_toNat, joinField_toNat, Nat.shiftRight_eq_div_pow]
  omega
@[simp] theorem fieldLow_join (h m l : Byte) : fieldLow (joinField h m l) = l := by
  apply BitVec.eq_of_toNat_eq
  have hl := l.isLt
  rw [fieldLow, BitVec.extractLsb'_toNat, joinField_toNat, Nat.shiftRight_eq_div_pow]
  omega

@[simp] theorem join_fields (a : Addr) : joinField (fieldHigh a) (fieldMid a) (fieldLow a) = a := by
  apply BitVec.eq_of_toNat_eq
  have ha := addr_toNat_lt a
  rw [joinField_toNat, fieldHigh, fieldMid, fieldLow, BitVec.extractLsb'_toNat, BitVec.extractLsb'_toNat, BitVec.extractLsb'_toNat,
    Nat.shiftRight_eq_div_pow, Nat.shiftRight_eq_div_pow, Nat.shiftRight_eq_div_pow]
  omega

theorem joinField_inj {h m l h' m' l' : Byte} : joinField h m l = joinField h' m' l' ↔ h = h' ∧ m = m' ∧ l = l' := by
  constructor
  · intro e
    exact ⟨by simpa using congrArg fieldHigh e, by simpa using congrArg fieldMid e, by simpa using congrArg fieldLow e⟩
  · rintro ⟨rfl, rfl, rfl⟩; rfl

/-- The three bytes of a field under the table's configuration (R27, R46). -/
theorem fieldBytes_eq (a : Addr) : fieldBytes a = [fieldHigh a, fieldMid a, fieldLow a] := by
  have e : fieldBytes a = [BitVec.ofNat 8 (a.toNat / 256 ^ 2), BitVec.ofNat 8 (a.toNat / 256 ^ 1), BitVec.ofNat 8 (a.toNat / 256 ^ 0)] := rfl
  rw [e]
  congr 1
  · apply BitVec.eq_of_toNat_eq
    rw [fieldHigh, BitVec.extractLsb'_toNat, BitVec.toNat_ofNat, Nat.shiftRight_eq_div_pow]
    rfl
  congr 1
  · apply BitVec.eq_of_toNat_eq
    rw [fieldMid, BitVec.extractLsb'_toNat, BitVec.toNat_ofNat, Nat.shiftRight_eq_div_pow]
    rfl
  congr 1
  apply BitVec.eq_of_toNat_eq
  rw [fieldLow, BitVec.extractLsb'_toNat, BitVec.toNat_ofNat, Nat.shiftRight_eq_div_pow]
  rfl

@[simp] theorem fieldBytes_joinField (h m l : Byte) : fieldBytes (joinField h m l) = [h, m, l] := by simp [fieldBytes_eq]

/-- The bytes of a field the encoder gives make the field again. -/
@[simp] theorem joinBytes_fieldBytes (a : Addr) : joinBytes (fieldBytes a) = a := by
  rw [fieldBytes_eq]; exact join_fields a

/-- A byte string of at least 9 bytes decodes to the three fields of its first 9 (R41, R42). -/
@[simp] theorem decode_nine (b0 b1 b2 b3 b4 b5 b6 b7 b8 : Byte) (rest : List Byte) :
    decode (b0 :: b1 :: b2 :: b3 :: b4 :: b5 :: b6 :: b7 :: b8 :: rest) =
      .ok (.cbj (joinField b0 b1 b2) (joinField b3 b4 b5) (joinField b6 b7 b8), rest) := rfl

@[simp] theorem fieldBytes_length (a : Addr) (cfg : Config) : (fieldBytes a cfg).length = cfg.fieldBytes := valueBytes_length _ _
/-- The nine bytes of an instruction under the table's configuration (R46). -/
theorem encode_cbj (a b c : Addr) : encode (.cbj a b c) =
    [fieldHigh a, fieldMid a, fieldLow a, fieldHigh b, fieldMid b, fieldLow b, fieldHigh c, fieldMid c, fieldLow c] := by
  simp [encode, fieldBytes_eq]

@[simp] theorem encode_length (i : Instr) : (encode i).length = 9 := by cases i; rfl
@[simp] theorem tableBytes_length (nbits w : Nat) : (tableBytes nbits w).length = 9 := valueBytes_length _ _

theorem takeBytes_append (bytes rest : List Byte) : takeBytes bytes.length (bytes ++ rest) = .ok (bytes, rest) := by
  induction bytes with
  | nil => rfl
  | cons b bytes ih => simp [takeBytes, ih]

/-- Three fields of FIELD_BYTES bytes decode, under any configuration, to the instruction they make (R41, R42). -/
theorem decode_fields {cfg : Config} {x y z : List Byte} (rest : List Byte) (hx : x.length = cfg.fieldBytes)
    (hy : y.length = cfg.fieldBytes) (hz : z.length = cfg.fieldBytes) :
    decode (x ++ (y ++ (z ++ rest))) cfg = .ok (.cbj (joinBytes x) (joinBytes y) (joinBytes z), rest) := by
  have t : ∀ {w : List Byte} (r : List Byte), w.length = cfg.fieldBytes → takeField (w ++ r) cfg = .ok (joinBytes w, r) := by
    intro w r h
    rw [takeField, ← h, takeBytes_append]
  simp [decode, t _ hx, t _ hy, t _ hz, bind, Except.bind, pure, Except.pure]

namespace Machine

/-! Reads and writes (R23, R24). -/

@[simp] theorem homeIndex_table (i : Nat) : homeIndex i = i := by simp [homeIndex]
@[simp] theorem addrIndex_eq (a : Addr) : addrIndex a = a.toNat := rfl
@[simp] theorem fetchIndex_eq (a : Addr) (k : Nat) : fetchIndex a k = a.toNat + k := rfl
theorem arrayIndex_lt (i : ArrayIndex) : i.val < 16777224 := i.isLt
@[simp] theorem toAddr_toNat (n : Nat) : (toAddr n).toNat = n % 16777216 := rfl

/-- A read of the array is a read of the stored byte. -/
theorem memRead_eq (m : Memory) (i : Nat) : memRead m i = m.read i := by simp [memRead]

/-- A byte of the address space is its own home under either reading of the pad. -/
theorem homeIndex_of_lt {cfg : Config} {i : Nat} (h : i < cfg.memSize) : homeIndex i cfg = i := by simp [homeIndex, h]

/-- With agreeing sizes a data read is a read of the stored byte, whatever the reading of the pad. -/
theorem memRead_addrIndex (m : Memory) (a : Addr) {cfg : Config} (h : cfg.Agrees) : memRead m (addrIndex a) cfg = m.read a.toNat := by
  have ha : a.toNat < cfg.memSize := h.memSize_eq ▸ addr_toNat_lt a
  rw [memRead, addrIndex_eq, homeIndex_of_lt ha]

/-- What a read at an array index gives after a write at an address, under any configuration (R24, R5). -/
theorem memRead_memWrite_under (m : Memory) (a : Addr) (v : Byte) (i : Nat) {cfg : Config} :
    memRead (memWrite m a v) i cfg = if homeIndex i cfg = a.toNat then v else memRead m i cfg := by
  simp only [memRead, memWrite, Memory.read_write]

/-- What a read at an array index gives after a write at an address (R24). -/
theorem memRead_memWrite (m : Memory) (a : Addr) (v : Byte) (i : Nat) :
    memRead (memWrite m a v) i = if i = a.toNat then v else memRead m i := by
  simp only [memRead_eq, memWrite, Memory.read_write]

/-- The stored byte at an index after a write at an address. -/
@[simp] theorem read_memWrite (m : Memory) (a : Addr) (v : Byte) (x : Nat) :
    (memWrite m a v).read x = if x = a.toNat then v else m.read x := Memory.read_write m a.toNat x v

theorem memWrite_wf {m : Memory} (a : Addr) (v : Byte) (h : m.wf = true) : (memWrite m a v).wf = true :=
  Memory.wf_write m a.toNat v (Nat.lt_trans (addr_toNat_lt a) (by decide)) h

@[simp] theorem readBytes_length (m : Memory) (a n : Nat) (cfg : Config) : (readBytes m a n cfg).length = n := by simp [readBytes]

theorem readBytes_append (m : Memory) (a n k : Nat) (cfg : Config) :
    readBytes m a (n + k) cfg = readBytes m a n cfg ++ readBytes m (a + n) k cfg := by
  simp [readBytes, List.range_add, Function.comp_def, Nat.add_assoc]

/-- The three bytes of a 3-byte read (R26). -/
theorem rd24_eq (m : Memory) (a : Addr) (k : Nat) :
    rd24 m a k = joinField (m.read (a.toNat + k)) (m.read (a.toNat + k + 1)) (m.read (a.toNat + k + 2)) := by
  have e : rd24 m a k = joinField (memRead m (a.toNat + k)) (memRead m (a.toNat + k + 1)) (memRead m (a.toNat + k + 2)) := rfl
  simp only [e, memRead_eq]

theorem rd24_zero (m : Memory) (a : Addr) :
    rd24 m a 0 = joinField (m.read a.toNat) (m.read (a.toNat + 1)) (m.read (a.toNat + 2)) := rd24_eq m a 0
theorem rd24_three (m : Memory) (a : Addr) :
    rd24 m a 3 = joinField (m.read (a.toNat + 3)) (m.read (a.toNat + 4)) (m.read (a.toNat + 5)) := rd24_eq m a 3
theorem rd24_six (m : Memory) (a : Addr) :
    rd24 m a 6 = joinField (m.read (a.toNat + 6)) (m.read (a.toNat + 7)) (m.read (a.toNat + 8)) := rd24_eq m a 6

/-- The window decodes to its three fields, under every configuration in which three fields make an instruction (R41, R43). -/
theorem decode_fetchWindow_under (m : Memory) (a : Addr) {cfg : Config} (h : cfg.instrBytes = 3 * cfg.fieldBytes) :
    decode (fetchWindow m a cfg) cfg =
      .ok (.cbj (rd24 m a 0 cfg) (rd24 m a cfg.fieldBytes cfg) (rd24 m a (2 * cfg.fieldBytes) cfg), []) := by
  have e : cfg.instrBytes = cfg.fieldBytes + (cfg.fieldBytes + (cfg.fieldBytes + 0)) := by omega
  rw [fetchWindow, e, readBytes_append, readBytes_append, readBytes_append,
    decode_fields _ (readBytes_length ..) (readBytes_length ..) (readBytes_length ..)]
  simp only [rd24, fetchIndex_eq, Nat.add_zero, Nat.two_mul, Nat.add_assoc]
  rfl

/-- The window decodes, to its three fields (R41, R43). -/
theorem decode_fetchWindow (m : Memory) (a : Addr) :
    decode (fetchWindow m a) = .ok (.cbj (rd24 m a 0) (rd24 m a 3) (rd24 m a 6), []) := decode_fetchWindow_under m a rfl

/-- Byte k of a window. -/
theorem fetchWindow_eq_ofFn (m : Memory) (a : Addr) :
    fetchWindow m a = List.ofFn fun k : Fin 9 => m.read (a.toNat + k.val) := by
  have e : fetchWindow m a = List.ofFn fun k : Fin 9 => memRead m (a.toNat + 0 + k.val) := by
    rw [List.ofFn_eq_map]; rfl
  simp only [e, memRead_eq, Nat.add_zero]

@[simp] theorem fetchWindow_length (m : Memory) (a : Addr) (cfg : Config) : (fetchWindow m a cfg).length = cfg.instrBytes :=
  readBytes_length ..

/-! Sequencing. -/

@[simp] theorem andThen_next (s : State) (f : State → Outcome) : andThen (.next s) f = f s := rfl
@[simp] theorem andThen_fault (r : Fault) (f : State → Outcome) : andThen (.fault r) f = .fault r := rfl
@[simp] theorem andThen_refused (r : Refusal) (f : State → Outcome) : andThen (.refused r) f = .refused r := rfl

theorem andThen_eq_next {o : Outcome} {f : State → Outcome} {t : State} (h : andThen o f = .next t) :
    ∃ s, o = .next s ∧ f s = .next t := by
  cases o with
  | next s => exact ⟨s, rfl, h⟩
  | fault r => cases h
  | refused r => cases h

end Machine
end Sys2Proof
end

