-- ==== Sys2Proof/Laws/CopyByteJump.lean ====
section
/-! SUPPORT. What one copy-byte-and-jump does, field by field, and where its jump goes (spec/ R48 to R51). -/

namespace Sys2Proof.Machine

/-- The one thing `CBJ` answers: the state with the byte copied and the jump made. -/
theorem execCbj_next (a b c : Addr) (s : State) :
    exec (.cbj a b c) s = .next ((s.writeData b (s.readData a)).jumpTo (targetAfterWrite s.pc b c (s.readData a))) := rfl

/-- Under the table's configuration an instruction has the machine's own meaning. -/
theorem execUnder_table : execUnder .table = exec := by
  funext i s; cases i; rfl

theorem readData_eq (s : State) (a : Addr) : s.readData a = s.mem.read a.toNat := memRead_eq ..

/-- The destination byte after a copy, and every other byte (R49). -/
theorem read_writeData (s : State) (b : Addr) (v : Byte) (x : Nat) :
    (s.writeData b v).mem.read x = if x = b.toNat then v else s.mem.read x := by
  simp

theorem byteAfterWrite_eq (pc : Addr) (k : Nat) (b : Addr) (v fetched : Byte) :
    byteAfterWrite pc k b v fetched = if pc.toNat + k = b.toNat then v else fetched := by
  simp [byteAfterWrite]

/-- The target, byte by byte: the written byte where it lies in field C, else the byte as fetched (R50). -/
theorem targetAfterWrite_eq (pc b c : Addr) (v : Byte) : targetAfterWrite pc b c v =
    joinField (if pc.toNat + 6 = b.toNat then v else fieldHigh c) (if pc.toNat + 7 = b.toNat then v else fieldMid c)
      (if pc.toNat + 8 = b.toNat then v else fieldLow c) := by
  rw [targetAfterWrite, fieldBytes_eq]
  show joinField (byteAfterWrite pc 6 b v (fieldHigh c)) (byteAfterWrite pc 7 b v (fieldMid c))
    (byteAfterWrite pc 8 b v (fieldLow c)) = _
  rw [byteAfterWrite_eq, byteAfterWrite_eq, byteAfterWrite_eq]

/-- A write outside the instruction's field C leaves the target as fetched (R50). -/
theorem targetAfterWrite_outside {pc b : Addr} (c : Addr) (v : Byte)
    (h : b.toNat < pc.toNat + 6 ∨ pc.toNat + 8 < b.toNat) : targetAfterWrite pc b c v = c := by
  have h6 : ¬ pc.toNat + 6 = b.toNat := by omega
  have h7 : ¬ pc.toNat + 7 = b.toNat := by omega
  have h8 : ¬ pc.toNat + 8 = b.toNat := by omega
  rw [targetAfterWrite_eq, if_neg h6, if_neg h7, if_neg h8, join_fields]

/-- The target is field C of the window, read after the write, under every configuration whose fields are as wide as an address
(R50). -/
theorem targetAfterWrite_eq_rd24_under (m : Memory) (pc b : Addr) (v : Byte) {cfg : Config} (h : 8 * cfg.fieldBytes = addrBits) :
    targetAfterWrite pc b (rd24 m pc (2 * cfg.fieldBytes) cfg) v cfg = rd24 (memWrite m b v) pc (2 * cfg.fieldBytes) cfg := by
  rw [targetAfterWrite, rd24, fieldBytes_joinBytes (readBytes_length ..) h, rd24, readBytes, readBytes, List.zipWith_map_right,
    List.zipWith_self]
  simp only [memRead_memWrite_under, byteAfterWrite, fetchIndex_eq, Nat.add_assoc]

/-- The target is field C of the window, read after the write (R50). -/
theorem targetAfterWrite_eq_rd24 (m : Memory) (pc b : Addr) (v : Byte) :
    targetAfterWrite pc b (rd24 m pc 6) v = rd24 (memWrite m b v) pc 6 := targetAfterWrite_eq_rd24_under m pc b v (cfg := .table) rfl

end Sys2Proof.Machine
end

