-- ==== Sys2Proof/Laws/Extractor.lean ====
section
/-! SUPPORT. The blocks the extractor makes, entry by entry (spec/ R80, R84), and where their bytes lie (R32). -/

namespace Sys2Proof.Machine

@[simp] theorem video_length (m : Memory) {cfg : Config} : (video m cfg).length = cfg.pixels := by simp [video]
@[simp] theorem audio_length (m : Memory) {cfg : Config} : (audio m cfg).length = cfg.samples := by simp [audio]

theorem video_pixel (m : Memory) {i : Nat} {cfg : Config} (h : i < cfg.pixels) :
    (video m cfg)[i]? = some (colour (memRead m (pixelIndex m i cfg) cfg) cfg) := by
  rw [video, List.getElem?_map, List.getElem?_range h, Option.map_some]

theorem audio_sample (m : Memory) {i : Nat} {cfg : Config} (h : i < cfg.samples) :
    (audio m cfg)[i]? = some (memRead m (sampleIndex m i cfg) cfg).toInt := by
  rw [audio, List.getElem?_map, List.getElem?_range h, Option.map_some]

/-- The video block starts at a multiple of 65,536, the last one at 255 * 65,536 (R79). -/
theorem videoBase_le (m : Memory) (cfg : Config) : (videoBase m cfg).toNat ≤ 255 * 65536 := by
  have h := (memRead m cfg.addrVideoPage cfg).isLt
  have z : (0 : Byte).toNat = 0 := rfl
  rw [videoBase, joinField_toNat, z]
  omega

/-- The audio block starts at a multiple of 256, the last one at 65,535 * 256 (R83). -/
theorem audioBase_le (m : Memory) (cfg : Config) : (audioBase m cfg).toNat ≤ 65535 * 256 := by
  have h := (memRead m cfg.addrAudioPage cfg).isLt
  have h' := (memRead m (cfg.addrAudioPage + 1) cfg).isLt
  have z : (0 : Byte).toNat = 0 := rfl
  rw [audioBase, joinField_toNat, z]
  omega

end Sys2Proof.Machine
end

