-- ==== Sys2Proof/Laws/Frame.lean ====
section
/-! SUPPORT. What one step can do, said once, and the pieces of a boundary phase (spec/ R55 to R62). -/

namespace Sys2Proof.Machine

/-- A boundary phase is due, or not (R55). -/
theorem boundaryIfDue_of_due {s : State} (h : s.q = 0) {cfg : Config} : boundaryIfDue s cfg = boundary s cfg := by simp [boundaryIfDue, h]
theorem boundaryIfDue_of_not_due {s : State} (h : s.q ≠ 0) {cfg : Config} : boundaryIfDue s cfg = s := by simp [boundaryIfDue, h]

@[simp] theorem boundaryIfDue_q (s : State) (cfg : Config) : (boundaryIfDue s cfg).q = s.q := by unfold boundaryIfDue; split <;> rfl
@[simp] theorem boundaryIfDue_keys (s : State) (cfg : Config) : (boundaryIfDue s cfg).keys = s.keys := by unfold boundaryIfDue; split <;> rfl
@[simp] theorem boundaryIfDue_acc (s : State) (cfg : Config) : (boundaryIfDue s cfg).acc = s.acc := by unfold boundaryIfDue; split <;> rfl
@[simp] theorem boundaryIfDue_speed (s : State) (cfg : Config) : (boundaryIfDue s cfg).speed = s.speed := by unfold boundaryIfDue; split <;> rfl
@[simp] theorem boundaryIfDue_paused (s : State) (cfg : Config) : (boundaryIfDue s cfg).paused = s.paused := by unfold boundaryIfDue; split <;> rfl
@[simp] theorem boundaryIfDue_frames (s : State) (cfg : Config) : (boundaryIfDue s cfg).frames = s.frames + if s.q = 0 then 1 else 0 := by
  unfold boundaryIfDue; split <;> simp

/-- The instruction a step runs: the fields of the window at the program counter (R41, R42). -/
def fetched (s : State) : Instr := .cbj (rd24 s.mem s.pc 0) (rd24 s.mem s.pc 3) (rd24 s.mem s.pc 6)

theorem runInstruction_eq (s : State) : runInstruction s = exec (fetched s) s := by
  simp [runInstruction, fetchAndRun, decode_fetchWindow, fetched]

/-- One step, whole: from the state after the boundary phase, if due, the fetched instruction and the count. -/
theorem step_eq (s : State) : step s = andThen (exec (fetched (boundaryIfDue s)) (boundaryIfDue s)) fun t => .next t.countInstruction := by
  simp [step, frameStep, fetchAndRun, decode_fetchWindow, fetched]

/-- Under the table's configuration the step is the machine's own. -/
theorem stepUnder_table (s : State) : stepUnder .table s = step s := by rw [stepUnder, step, execUnder_table]

/-- The state one step leads to. -/
def afterStep (s : State) : State :=
  let u := boundaryIfDue s
  ((u.writeData (rd24 u.mem u.pc 3) (u.readData (rd24 u.mem u.pc 0))).jumpTo
    (targetAfterWrite u.pc (rd24 u.mem u.pc 3) (rd24 u.mem u.pc 6) (u.readData (rd24 u.mem u.pc 0)))).countInstruction

/-- Say once what a step can do: it answers `afterStep`, always. -/
theorem step_next (s : State) : step s = .next (afterStep s) := by rw [step_eq]; rfl

theorem afterStep_mem (s : State) : (afterStep s).mem = memWrite (boundaryIfDue s).mem
    (rd24 (boundaryIfDue s).mem (boundaryIfDue s).pc 3)
    ((boundaryIfDue s).readData (rd24 (boundaryIfDue s).mem (boundaryIfDue s).pc 0)) := rfl
@[simp] theorem afterStep_q (s : State) : (afterStep s).q = (s.q + 1) % 65536 := by simp [afterStep]
@[simp] theorem afterStep_frames (s : State) : (afterStep s).frames = s.frames + if s.q = 0 then 1 else 0 := by simp [afterStep]
@[simp] theorem afterStep_keys (s : State) : (afterStep s).keys = s.keys := by simp [afterStep]
@[simp] theorem afterStep_acc (s : State) : (afterStep s).acc = s.acc := by simp [afterStep]
@[simp] theorem afterStep_speed (s : State) : (afterStep s).speed = s.speed := by simp [afterStep]
@[simp] theorem afterStep_paused (s : State) : (afterStep s).paused = s.paused := by simp [afterStep]
@[simp] theorem afterStep_emitted (s : State) : (afterStep s).emitted = (boundaryIfDue s).emitted := by simp [afterStep]

/-- The host's run of n + 1 steps is one step and then n. -/
theorem run_succ (n : Nat) (s : State) :
    Host.Core.run Sys2Proof.core (n + 1) s = Host.Core.run Sys2Proof.core n (afterStep s) := by
  have h : Sys2Proof.core.step s = .next (afterStep s) := step_next s
  show (match Sys2Proof.core.step s with
    | .next s' => Host.Core.run Sys2Proof.core n s'
    | .fault r => .fault r
    | .refused r => .refused r) = _
  rw [h]

/-- The bytes after a key latch (R58). -/
theorem read_latchKeys (s : State) (x : Nat) : s.latchKeys.mem.read x =
    if x = 0 then keysHigh s.keys else if x = 1 then keysLow s.keys else s.mem.read x := by
  have h0 : (toAddr Config.table.addrKeyHi).toNat = 0 := rfl
  have h1 : (toAddr Config.table.addrKeyLo).toNat = 1 := rfl
  simp only [State.latchKeys, memWrite, Memory.read_write, h0, h1]
  split <;> split <;> first | rfl | omega

/-- Where a boundary phase goes: the big-endian value of bytes 2 to 4 as they were (R59). -/
theorem boundary_pc_eq (s : State) : (boundary s).pc = joinField (s.mem.read 2) (s.mem.read 3) (s.mem.read 4) := by
  have e : (toAddr Config.table.addrPcVec).toNat = 2 := rfl
  rw [boundary_pc, rd24_zero, e, read_latchKeys, read_latchKeys, read_latchKeys]
  rfl

end Sys2Proof.Machine
end

