-- ==== Sys2Proof/Laws/Pacer.lean ====
section
/-! SUPPORT. The pacer's loop, one turn at a time, and the host's operations (spec/ R69 to R76). -/

namespace Sys2Proof.Machine

/-- The clamp at the table's 50 ms (R70). -/
theorem clampElapsed_table (e : ℚ) : clampElapsed e = min e 50 := rfl

@[simp] theorem drain_zero (draws : List KeyState) (s : State) : drain 0 draws s = .next s := rfl

/-- One turn of the loop runs one step and spends one from the carry (R72). -/
theorem drain_turn (fuel : Nat) (draws : List KeyState) (s : State) (h : 1 ≤ s.acc) :
    drain (fuel + 1) draws s = drain fuel (drawsLeft s draws) (afterStep (s.sampleKeys draws)).spend := by
  simp [drain, h, stepUnder_table, step_next]

/-- The loop stops when less than one instruction is buffered (R72). -/
theorem drain_stop (fuel : Nat) (draws : List KeyState) (s : State) (h : s.acc < 1) : drain fuel draws s = .next s := by
  cases fuel with
  | zero => rfl
  | succ n => simp [drain, not_le.2 h]

@[simp] theorem sampleKeys_nil (s : State) : s.sampleKeys [] = s := by simp [State.sampleKeys]
@[simp] theorem drawsLeft_nil (s : State) : drawsLeft s [] = [] := by simp [drawsLeft]

theorem tick_negative {e : ℚ} (h : e < 0) (draws : List KeyState) (s : State) : tick e draws s = .refused .negativeElapsed := by
  simp [tick, h]

theorem tick_paused {e : ℚ} (h : 0 ≤ e) (draws : List KeyState) {s : State} (hp : s.paused = true) : tick e draws s = .next s := by
  simp [tick, not_lt.2 h, hp]

theorem tick_running {e : ℚ} (h : 0 ≤ e) (draws : List KeyState) {s : State} (hp : s.paused = false) :
    tick e draws s = drain ⌊(s.accumulate e).acc⌋₊ draws (s.accumulate e) := by
  simp [tick, not_lt.2 h, hp]

@[simp] theorem hostRun_nil (s : State) : hostRun [] s = .next s := rfl
theorem hostRun_cons (op : HostOp) (ops : List HostOp) (s : State) :
    hostRun (op :: ops) s = andThen (hostOp op s) (fun t => hostRun ops t) := rfl

end Sys2Proof.Machine
end

