-- ==== Sys2Proof/Laws/PerInstr.lean ====
section
/-! SUPPORT. Statements made once per instruction. -/

/-- Every instruction's encoding is 9 bytes, the one length there is (spec/ R40, R44). -/
def Sys2Proof.Laws.EncodingLength.Statement (i : Sys2Proof.Instr) : Prop := (Sys2Proof.encode i).length = 9

theorem Sys2Proof.Laws.EncodingLength.cbj (a b c : Sys2Proof.Addr) :
    Sys2Proof.Laws.EncodingLength.Statement (.cbj a b c) := Sys2Proof.encode_length _
end

