-- ==== Sys2Proof/Tests/Slice0.lean ====
section
/-! SUPPORT. Tests and witnesses. Expected results come from spec/95_test_vectors.md or are worked out by hand from the rule named. -/

namespace Sys2Proof.Tests

open Sys2Proof Sys2Proof.Machine

/-- An executing state (q = 1, no boundary due) with its PC and memory. -/
def executing (pc : Addr) (m : Memory) : State := { State.reset with pc := pc, mem := m, q := 1 }

/-- The outcome is a next state with the property. -/
def nextHas (o : Outcome) (p : State → Bool) : Bool :=
  match o with
  | .next t => p t
  | .fault _ => false
  | .refused _ => false

/-! Ill-formed terms are refused (R46), and every instruction is well-formed (R43). -/

theorem test_wf_every_instruction : (Instr.cbj 0xFFFFFF 0 0xFFFFF7).wellFormed = true := by decide
theorem test_wf_refuses_operand_of_25_bits : Item.listingWellFormed [.cbj (.num 0x1000000) (.num 0) (.num 0)] = false := by decide
theorem test_wf_refuses_second_operand_of_25_bits : Item.listingWellFormed [.cbj (.num 0) (.num 0x1000000) (.num 0)] = false := by decide
theorem test_wf_refuses_third_operand_of_25_bits : Item.listingWellFormed [.cbj (.num 0) (.num 0) (.num 0x1000000)] = false := by decide
theorem test_wf_refuses_u24_of_25_bits : Item.listingWellFormed [.u24 (.num 0x1000000)] = false := by decide
theorem test_wf_refuses_undefined_label : Item.listingWellFormed [.u24 (.label 1)] = false := by decide
theorem test_wf_refuses_byte_of_9_bits : Item.listingWellFormed [.byte [255, 256]] = false := by decide
theorem test_wf_refuses_org_past_the_top : Item.listingWellFormed [.org 0x1000000] = false := by decide
theorem test_wf_refuses_label_twice : Item.listingWellFormed [.label 1, .label 1] = false := by decide
theorem test_assemble_refuses_ill_formed : assemble [.byte [256]] = none := by decide

/-! Decoding: words written out byte by byte from R40's table (vectors V1, V3, V13, and all fields different). -/

theorem test_decode_V1 : decode [0x00, 0x00, 0x20, 0x00, 0x00, 0x21, 0x00, 0x01, 0x00] = .ok (.cbj 0x20 0x21 0x100, []) := by decide
theorem test_decode_V3 : decode [0x00, 0x00, 0x20, 0x00, 0x01, 0x08, 0x00, 0x01, 0x00] = .ok (.cbj 0x20 0x108 0x100, []) := by decide
theorem test_decode_V13 : decode [0xFF, 0xFF, 0xFF, 0xFF, 0xFF, 0xFF, 0xFF, 0xFF, 0xF7] = .ok (.cbj 0xFFFFFF 0xFFFFFF 0xFFFFF7, []) := by
  decide
theorem test_decode_keeps_the_rest :
    decode [1, 2, 3, 4, 5, 6, 7, 8, 9, 10] = .ok (.cbj 0x010203 0x040506 0x070809, [10]) := by decide
theorem test_decode_rejects_8_bytes : decode [1, 2, 3, 4, 5, 6, 7, 8] = .error .truncated := by decide
theorem test_table_word : decodeTableWord 72 0x010203040506070809 = some (.cbj 0x010203 0x040506 0x070809) := by decide
theorem test_table_word_short : decodeTableWord 24 0xFF070809 = some (.cbj 0 0 0x070809) := by decide

/-! The instruction: field C read after the write (V3), and the top of memory (V7). -/

theorem test_cbj_own_field_C : nextHas (step (executing 0x100
      [(0x20, 0x40), (0x102, 0x20), (0x104, 0x01), (0x105, 0x08), (0x107, 0x01)]))
    (fun t => t.pc == 0x140 && t.mem.read 0x108 == 0x40 && t.q == 2 && t.frames == 0) = true := by decide

theorem test_cbj_top_of_memory : nextHas (step (executing 0xFFFFFF [(0x120000, 0x77), (0xFFFFFF, 0x12)]))
    (fun t => t.pc == 0 && t.mem == [(0, 0x77), (0x120000, 0x77), (0xFFFFFF, 0x12)]) = true := by decide

/-- The modulo reading of C1, worked out by hand: at 0xFFFFFF fields A, B and C have their other bytes at addresses 0 to 7. -/
theorem test_cbj_modulo_reading : nextHas (stepUnder { padReadsZero := false } (executing 0xFFFFFF
      [(0x01, 0x20), (0x04, 0x21), (0x06, 0x01), (0x20, 0x5A)]))
    (fun t => t.pc == 0x100 && t.mem.read 0x21 == 0x5A && t.q == 2) = true := by decide

/-! The step: F2, and F1's wrap of the quota counter. -/

theorem test_step_boundary_F2 : nextHas (step { State.reset with frames := 7, keys := 0xABCD, mem := [(3, 0x12), (4, 0x34), (0x123C, 0x09)] })
    (fun t => t.frames == 8 && t.q == 1 && t.mem.read 0 == 0xAB && t.mem.read 1 == 0xCD && t.pc == 0x09) = true := by decide

theorem test_step_quota_wraps_F1 : nextHas (step { State.reset with q := 65535, keys := 0xABCD, frames := 3 })
    (fun t => t.q == 0 && t.frames == 3 && t.mem == [] && t.emitted == []) = true := by decide

/-! A load: R63's example. -/

theorem test_load_R63 : nextHas (loadProgram [0, 0, 0, 0, 8] { State.reset with q := 1234, pc := 5, frames := 2, mem := [(9, 9)] })
    (fun t => t.mem == [(4, 8)] && t.q == 0 && t.pc == 5 && t.frames == 2) = true := by decide

/-! The pacer: 3932.16 * 0.001 = 3.93216 instructions, by R69; a boundary takes the next draw, by R58 and D6; P-10. -/

theorem test_tick_three_steps : nextHas (tick (1 / 1000) [0x00CD] State.reset)
    (fun t => t.q == 3 && t.frames == 1 && t.acc == 2913 / 3125 && t.keys == 0x00CD && t.mem.read 1 == 0xCD) = true := by decide +kernel
theorem test_tick_P10 : tick (-1) [] State.reset = .refused .negativeElapsed := tick_negative (by norm_num) _ _

/-! The extractor: W1 to W4, a row of the palette table, E1, E4, E6. -/

theorem test_palette_W1_to_W4 : colour 0 = ⟨0, 0, 0, 255⟩ ∧ colour 215 = ⟨255, 255, 255, 255⟩ ∧ colour 216 = ⟨0, 0, 0, 255⟩ ∧
    colour 255 = ⟨0, 0, 0, 255⟩ := by decide
theorem test_palette_100 : colour 100 = ⟨102, 204, 204, 255⟩ := by decide
theorem test_bases_E1_E4 : videoBase [(5, 0x12)] = 0x120000 ∧ audioBase [(6, 0x12), (7, 0x34)] = 0x123400 := by decide
theorem test_samples_E6 : (audio [(6, 0x12), (0x120001, 0x7F), (0x120002, 0x80), (0x120003, 0xFF)]).take 4 = [0, 127, -128, -1] := by decide

/-! A listing: program P1 assembles to its 33 bytes. -/

theorem test_assemble_P1 : assemble [.org 2, .u24 (.label 0), .byte [0x02], .byte [0x03, 0x00], .label 0,
      .cbj (.num 0x20) (.num 0x21) (.label 0), .org 0x20, .byte [0x5A]] =
    some ([0x00, 0x00, 0x00, 0x00, 0x08, 0x02, 0x03, 0x00, 0x00, 0x00, 0x20, 0x00, 0x00, 0x21, 0x00, 0x00, 0x08] ++
      List.replicate 15 0x00 ++ [0x5A]) := by decide

/-! A placed word runs next: from reset, from an executing state, and where the PC is too near the top. -/

theorem test_placed_word_from_reset : nextHas (step (State.reset.withFetchWord 72 0x000002000020123456))
    (fun t => t.pc == 0x123456 && t.q == 1 && t.frames == 1) = true := by decide
theorem test_placed_word_near_the_top : nextHas (step ((executing 0xFFFFFE []).withFetchWord 72 0x000010000020123456))
    (fun t => t.pc == 0x123456 && t.mem.read 0x20 == 0x56) = true := by decide

/-! Witnesses: for each statement with hypotheses, states and operands that meet them, at the boundary values of its clauses. -/

theorem witness_DecodeAndEncodeAgree : (Instr.cbj 1 2 3).wellFormed = true ∧
    decode [0, 0, 1, 0, 0, 2, 0, 0, 3, 9] = .ok (.cbj 1 2 3, [9]) := by decide

theorem witness_EveryNineBytesAreACbj : ([1, 2, 3, 4, 5, 6, 7, 8, 9] : List Byte).length = 9 := by decide

theorem witness_WindowFieldsAreBitSlices : ∀ k : Fin 9, (memRead [(0x100, 0x12), (0x108, 0x34)] (fetchIndex 0x100 k)).toNat =
    (0x120000000000000034 : BitVec 72).toNat / 256 ^ (8 - k.val) % 256 := by decide

theorem witness_TableWordFieldsAreBitSlices : 72 ≤ 72 ∧ (0x120000000000000034 : BitVec 72).toNat < 2 ^ 72 ∧
    24 ≤ 72 ∧ (0xFFFFFF : BitVec 72).toNat < 2 ^ 24 := by decide

theorem witness_Rd24IsBigEndian : (⟨6, by decide⟩ : ArrayIndex).val = (0 : Addr).toNat + (6 : Fin 7).val ∧
    (⟨7, by decide⟩ : ArrayIndex).val = (0 : Addr).toNat + (6 : Fin 7).val + 1 ∧ (⟨8, by decide⟩ : ArrayIndex).val = (0 : Addr).toNat + (6 : Fin 7).val + 2 := by
  decide

theorem padZero_of_below {m : Memory} (h : ∀ c ∈ m, c.1 < 16777216) : m.padZero := by
  intro i hi _
  induction m with
  | nil => rfl
  | cons c rest ih =>
    have hc : c.1 < 16777216 := h c (by simp)
    have hi : 16777216 ≤ i := hi
    rw [Memory.read, if_neg (by omega)]
    exact ih fun d hd => h d (by simp [hd])

/-- One witness per clause: the PC of each row of R45's table, over a memory whose addressable bytes there are not zero. -/
theorem witness_FetchPastTheTopReadsZeros :
    Memory.padZero [(0xFFFFF8, 1), (0xFFFFF9, 2), (0xFFFFFA, 3), (0xFFFFFB, 4), (0xFFFFFC, 5), (0xFFFFFD, 6), (0xFFFFFE, 7), (0xFFFFFF, 8)] ∧
    ∀ k : Fin 8, (0xFFFFF8 + BitVec.ofNat _ k.val : Addr).toNat = 0xFFFFF8 + k.val ∧
      ∃ a b c : Addr, decode (fetchWindow [(0xFFFFF8, 1), (0xFFFFF9, 2), (0xFFFFFA, 3), (0xFFFFFB, 4), (0xFFFFFC, 5), (0xFFFFFD, 6),
        (0xFFFFFE, 7), (0xFFFFFF, 8)] (0xFFFFF8 + BitVec.ofNat _ k.val)) = .ok (.cbj a b c, []) :=
  ⟨padZero_of_below (by decide), fun k => ⟨by revert k; decide, _, _, _, decode_fetchWindow _ _⟩⟩

/-- B just below, at each byte of, and just above the instruction's own field C, for an instruction at 0x100. -/
theorem witness_CbjCopiesOneByteAndJumps :
    (0x105 : Addr).toNat < (executing 0x100 []).pc.toNat + 6 ∧ (executing 0x100 []).pc.toNat + 8 < (0x109 : Addr).toNat ∧
    (0x106 : Addr).toNat = (executing 0x100 []).pc.toNat + 6 ∧ (0x107 : Addr).toNat = (executing 0x100 []).pc.toNat + 7 ∧
    (0x108 : Addr).toNat = (executing 0x100 []).pc.toNat + 8 := by decide

/-- V3's bytes: the copy lands in field C and changes it. -/
theorem witness_JumpDiffersExactlyWhenOwnFieldCChanges :
    decode (fetchWindow [(0x20, 0x40), (0x102, 0x20), (0x104, 0x01), (0x105, 0x08), (0x107, 0x01)] 0x100) =
      .ok (.cbj 0x20 0x108 0x100, []) := by decide

theorem witness_CopyOfTheSameByteKeepsMemory : Memory.wf [(0x20, 0x5A), (0x21, 0x5A)] = true ∧
    memRead [(0x20, 0x5A), (0x21, 0x5A)] (addrIndex 0x20) = memRead [(0x20, 0x5A), (0x21, 0x5A)] (addrIndex 0x21) := by decide

theorem witness_TopInstructionCopiesToZero :
    (executing 0xFFFFFF [(0x120000, 0x77), (0xFFFFFF, 0x12)]).mem.padZero ∧
    (executing 0xFFFFFF [(0x120000, 0x77), (0xFFFFFF, 0x12)]).pc = 0xFFFFFF := ⟨padZero_of_below (by decide), rfl⟩

theorem witness_PcVectorWriteWaitsForTheBoundary : 2 ≤ (2 : Addr).toNat ∧ (4 : Addr).toNat ≤ 4 ∧
    (2 : Addr).toNat < (executing 0x100 []).pc.toNat + 6 ∧ (4 : Addr).toNat < (executing 0x100 []).pc.toNat + 6 ∧
    (executing 0x100 []).pc.toNat + 8 ≥ (4 : Addr).toNat := by decide

theorem witness_InstructionReadsOnlyMemoryAndPc : (executing 5 [(1, 1)]).mem = ({ executing 5 [(1, 1)] with keys := 3, frames := 9 } : State).mem ∧
    (executing 5 [(1, 1)]).pc = ({ executing 5 [(1, 1)] with keys := 3, frames := 9 } : State).pc := ⟨rfl, rfl⟩

/-- Both clauses: a boundary due at reset, and none due. -/
theorem witness_StepRunsTheDecodedInstruction :
    (State.reset.q = 0 ∧ decode (fetchWindow (boundary State.reset).mem (boundary State.reset).pc) = .ok (.cbj 0 0 0, [])) ∧
    ((executing 5 []).q ≠ 0 ∧ decode (fetchWindow (executing 5 []).mem (executing 5 []).pc) = .ok (.cbj 0 0 0, [])) := by decide

theorem witness_StepIsBoundaryThenInstruction :
    State.reset.q = 0 ∧ (executing 5 []).q ≠ 0 ∧ ({ State.reset with q := 65535 } : State).q ≠ 0 := by decide

/-- The first and the last length of the frame. -/
theorem witness_FrameIsBoundaryThenQuota : State.reset.q = 0 ∧ 0 < 1 ∧ 1 ≤ 65536 ∧ 0 < 65536 ∧ 65536 ≤ 65536 := by decide

/-- At a boundary, and at the last instruction of a frame. -/
theorem witness_QuotaOfStepsHasOneBoundary : State.reset.q < 65536 ∧ ({ State.reset with q := 65535 } : State).q < 65536 := by decide

theorem witness_OutputShowsTheFinishedFrame : State.reset.q = 0 := by decide

theorem witness_KeyChangeWaitsForTheBoundary : (executing 5 []).q ≠ 0 ∧ ({ State.reset with q := 65535 } : State).q ≠ 0 := by decide

theorem witness_TickIsClampedToFiftyMilliseconds : (50 : ℚ) ≤ 50 ∧ (50 : ℚ) ≤ 100 ∧ 0 ≤ State.reset.speed := by
  refine ⟨le_refl _, by norm_num, ?_⟩
  show (0 : ℚ) ≤ 1
  norm_num

/-- A state that has run and carries half an instruction. -/
def carrying : State := { executing 5 [(1, 1)] with acc := 1 / 2 }

theorem witness_carrying : carrying.paused = false ∧ 0 ≤ carrying.acc ∧ carrying.acc < 1 ∧ 0 ≤ carrying.speed := by
  refine ⟨rfl, ?_, ?_, ?_⟩
  · show (0 : ℚ) ≤ 1 / 2
    norm_num
  · show (1 / 2 : ℚ) < 1
    norm_num
  · show (0 : ℚ) ≤ 1
    norm_num

theorem witness_TickRunsTheWholePartOfTheCarry :
    (0 : ℚ) ≤ 50 / 3 ∧ carrying.paused = false ∧ 0 ≤ carrying.acc ∧ 0 ≤ carrying.speed :=
  ⟨by norm_num, witness_carrying.1, witness_carrying.2.1, witness_carrying.2.2.2⟩

theorem witness_TickStepCountIgnoresTheKeys :
    (0 : ℚ) ≤ 50 ∧ carrying.paused = false ∧ 0 ≤ carrying.acc ∧ 0 ≤ carrying.speed ∧ carrying.q < 65536 :=
  ⟨by norm_num, witness_carrying.1, witness_carrying.2.1, witness_carrying.2.2.2, by decide⟩

theorem witness_SplitTicksEqualOneTick : (0 : ℚ) ≤ 20 ∧ (0 : ℚ) ≤ 30 ∧ (20 : ℚ) + 30 ≤ 50 ∧
    carrying.paused = false ∧ 0 ≤ carrying.acc ∧ 0 ≤ carrying.speed :=
  ⟨by norm_num, by norm_num, by norm_num, witness_carrying.1, witness_carrying.2.1, witness_carrying.2.2.2⟩

theorem witness_ThroughputOverManyTicks : (∀ e ∈ ([0, 5 / 3, 50] : List ℚ), 0 ≤ e ∧ e ≤ 50) ∧
    carrying.paused = false ∧ 0 ≤ carrying.acc ∧ carrying.acc < 1 ∧ 0 ≤ carrying.speed :=
  ⟨by norm_num, witness_carrying⟩

theorem witness_PauseKeepsTheWholeState : ∀ x ∈ ([(0, []), (50, [3])] : List (ℚ × List KeyState)), 0 ≤ x.1 := by norm_num

theorem witness_SpeedAndPauseSetOnlyThemselves : (0 : ℚ) ≤ 0 := le_refl 0

/-- Both branches of the two host preconditions, at and below zero. -/
theorem witness_OnlyHostPreconditionsRefuse : (-1 : ℚ) < 0 ∧ ¬ (0 : ℚ) < 0 := ⟨by norm_num, lt_irrefl 0⟩

theorem witness_PaletteLaw : (215 : Byte).toNat < 216 ∧ 216 ≤ (216 : Byte).toNat := by decide

theorem witness_AlphaIsOpaqueAndReservedIsBlack : 216 ≤ (216 : Byte).toNat ∧ 216 ≤ (255 : Byte).toNat := by decide

theorem carrying_inv : carrying.Inv :=
  ⟨by decide, padZero_of_below (by decide), by decide, witness_carrying.2.1, witness_carrying.2.2.2⟩

theorem witness_StepKeepsTheInvariant : carrying.Inv ∧ ∃ t, step carrying = .next t := ⟨carrying_inv, _, step_next carrying⟩

/-- Every kind of operation completes from a state of the invariant, the unpaused tick of the last clause among them. -/
theorem witness_HostOperationKeepsTheInvariant : carrying.Inv ∧ carrying.paused = false ∧
    (∃ t, hostOp (.loadProgram [1]) carrying = .next t) ∧ (∃ t, hostOp (.tick 0 []) carrying = .next t) ∧
    (∃ t, hostOp (.setSpeed 0) carrying = .next t) ∧ (∃ t, hostOp (.setPaused true) carrying = .next t) ∧
    (∃ t, hostOp (.setKeys 3) carrying = .next t) := by
  refine ⟨carrying_inv, rfl, ⟨_, rfl⟩, ⟨carrying.accumulate 0, ?_⟩, ⟨{ carrying with speed := 0 }, ?_⟩, ⟨_, rfl⟩, ⟨_, rfl⟩⟩
  · show tick 0 [] carrying = _
    rw [tick_running (le_refl 0) [] rfl]
    refine drain_stop _ _ _ ?_
    rw [State.accumulate_acc, clampElapsed, min_eq_left (by norm_num), mul_zero, add_zero]
    exact witness_carrying.2.2.1
  · show setSpeed 0 carrying = _
    rw [setSpeed, if_neg (lt_irrefl 0)]

theorem witness_PadIsZeroWheneverReachable : Reachable State.reset ∧ 0x1000000 ≤ (0xFFFFFF : Addr).toNat + (1 : Fin 9).val ∧
    0x1000000 ≤ (0xFFFFF8 : Addr).toNat + (8 : Fin 9).val := ⟨.reset, by decide, by decide⟩

theorem witness_PlacedWordRunsNext : decodeTableWord 72 0x000020000021000100 = some (.cbj 0x20 0x21 0x100) := by decide

/-- A configuration whose sizes agree and are not the table's: a longer pad, the modulo reading, a frame of 3 instructions, small
blocks. -/
def otherConfig : Config :=
  { padSize := 16, padReadsZero := false, ipf := 3, pixels := 4, samples := 2, videoSinkPresent := true, audioSinkPresent := true }

theorem otherConfig_agrees : otherConfig.Agrees :=
  ⟨rfl, rfl, rfl, rfl, rfl, by decide, by decide, by decide, by decide, by decide⟩

/-- A step under it, by R56, R80, R83 and R5: the boundary hands out 4 black pixels and 2 zero samples. -/
theorem test_step_under_other_config : nextHas (stepUnder otherConfig State.reset)
    (fun t => t.q == 1 && t.emitted == [.video (List.replicate 4 ⟨0, 0, 0, 255⟩), .audio [0, 0]]) = true := by decide

theorem test_step_under_other_config_quota : nextHas (stepUnder otherConfig { State.reset with q := 2 }) (fun t => t.q == 0) = true := by
  decide

theorem witness_MachineHasTheTableConfiguration : Config.table.Agrees := Config.table_agrees

theorem witness_StepUnderEveryConfiguration : otherConfig.Agrees ∧ Config.table.Agrees := ⟨otherConfig_agrees, Config.table_agrees⟩

/-- The first and the last byte of a fetch, of a video block, of an audio block and of the PC reload field. -/
theorem witness_AgreeingSizesKeepAccessesInTheArray : otherConfig.Agrees ∧ 0 < otherConfig.instrBytes ∧ 8 < otherConfig.instrBytes ∧
    0 < otherConfig.pixels ∧ 3 < otherConfig.pixels ∧ 1 < otherConfig.samples ∧ 2 < otherConfig.fieldBytes ∧
    65535 < Config.table.pixels ∧ 255 < Config.table.samples :=
  ⟨otherConfig_agrees, by decide, by decide, by decide, by decide, by decide, by decide, by decide, by decide⟩

/-- Byte pc + k at the last address and at the first pad byte, a configuration of either reading, and the last PC whose window has no
pad byte. -/
theorem witness_PadReadingsDifferOnlyPastTheTop : otherConfig.Agrees ∧ Config.table.Agrees ∧ 8 < otherConfig.instrBytes ∧
    8 < Config.table.instrBytes ∧ (0xFFFFF7 : Addr).toNat + 8 < 16777216 ∧ 16777216 ≤ (0xFFFFF8 : Addr).toNat + 8 ∧
    otherConfig.padReadsZero = false ∧ Config.table.padReadsZero = true ∧ Memory.padZero [(0xFFFFFF, 1)] ∧
    (executing 0xFFFFF7 []).pc.toNat ≤ 0xFFFFF7 :=
  ⟨otherConfig_agrees, Config.table_agrees, by decide, by decide, by decide, by decide, rfl, rfl, padZero_of_below (by decide), by decide⟩

/-- The premises, from a state with no boundary due and from one with a boundary due. -/
theorem witness_TickLatchesEachDraw :
    (0 : ℚ) ≤ 50 / 3 ∧ carrying.paused = false ∧ 0 ≤ carrying.acc ∧ 0 ≤ carrying.speed ∧ carrying.q ≠ 0 ∧ State.reset.q = 0 ∧
    State.reset.paused = false ∧ 0 ≤ State.reset.acc ∧ 0 ≤ State.reset.speed :=
  ⟨by norm_num, witness_carrying.1, witness_carrying.2.1, witness_carrying.2.2.2, by decide, rfl, rfl, by simp, by simp⟩

/-- Both clauses of byte 1: a boundary due, and none due. -/
theorem witness_IdleMachineStaysIdle : (State.reset.idle ∧ State.reset.q = 0 ∧ ∃ t, step State.reset = .next t) ∧
    ((executing 0 [(1, 0xCD)]).idle ∧ (executing 0 [(1, 0xCD)]).q ≠ 0 ∧ ∃ t, step (executing 0 [(1, 0xCD)]) = .next t) := by
  refine ⟨⟨⟨rfl, fun i _ => by rw [memRead_eq]; rfl, .inr rfl⟩, rfl, _, step_next _⟩, ⟨rfl, fun i h => ?_, .inl (by decide)⟩, by decide, _,
    step_next _⟩
  rw [memRead_eq]
  exact (if_neg (show ¬ 1 = i.val by omega))

end Sys2Proof.Tests
end

section
/-! SUPPORT. Proofs about the parameters of R5: what a read of the array is under any configuration whose sizes agree, and the statements
about configurations. -/

namespace Sys2Proof.Machine

/-! Reads of the array under any configuration (R5, R23, C1). -/

/-- Where PAD_READS_ZERO is true every index is its own home (D1). -/
theorem homeIndex_of_padReadsZero {cfg : Config} (h : cfg.padReadsZero = true) (i : Nat) : homeIndex i cfg = i := by
  simp [homeIndex, h]

/-- Under the modulo reading an index past the top is read at the index less MEM_SIZE (C1). -/
theorem homeIndex_of_modulo {cfg : Config} (h : cfg.padReadsZero = false) {i : Nat} (hi : cfg.memSize ≤ i) :
    homeIndex i cfg = i - cfg.memSize := by
  simp [homeIndex, h, Nat.not_lt.mpr hi]

/-- With agreeing sizes a read below 2^24 is a read of the stored byte, whatever the reading of the pad. -/
theorem memRead_of_lt (m : Memory) {i : Nat} {cfg : Config} (h : cfg.Agrees) (hi : i < 16777216) : memRead m i cfg = m.read i := by
  rw [memRead, homeIndex_of_lt (h.memSize_eq ▸ hi)]

/-- With agreeing sizes the modulo reading takes 2^24 off an index past the top (C1). -/
theorem memRead_of_modulo (m : Memory) {i : Nat} {cfg : Config} (h : cfg.Agrees) (hp : cfg.padReadsZero = false)
    (hi : 16777216 ≤ i) : memRead m i cfg = m.read (i - 16777216) := by
  rw [memRead, homeIndex_of_modulo hp (h.memSize_eq ▸ hi), h.memSize_eq]

/-- A pad byte of a zero pad reads zero where PAD_READS_ZERO is true (R25, D1). -/
theorem memRead_of_padZero {m : Memory} {i : Nat} {cfg : Config} (h : cfg.Agrees) (hp : cfg.padReadsZero = true)
    (hz : m.padZero cfg) (hi : 16777216 ≤ i) (ha : i < cfg.arraySize) : memRead m i cfg = 0 := by
  rw [memRead, homeIndex_of_padReadsZero hp]
  exact hz i (h.memSize_eq ▸ hi) ha

/-- With agreeing sizes every byte of a fetch is in the array (R32). -/
theorem fetchIndex_lt_arraySize {cfg : Config} (h : cfg.Agrees) (pc : Addr) {k : Nat} (hk : k < cfg.instrBytes) :
    fetchIndex pc k < cfg.arraySize := by
  have ha := addr_toNat_lt pc
  have hs := h.arraySize_ge
  rw [h.instrBytes_eq] at hk
  rw [fetchIndex_eq]
  omega

/-- With agreeing sizes a field is the join of its three bytes, each read under the configuration's reading of the pad (R26). -/
theorem rd24_under (m : Memory) (a : Addr) (k : Nat) {cfg : Config} (h : cfg.Agrees) :
    rd24 m a k cfg =
      joinField (memRead m (a.toNat + k) cfg) (memRead m (a.toNat + k + 1) cfg) (memRead m (a.toNat + k + 2) cfg) := by
  rw [rd24, h.fieldBytes_eq]
  rfl

/-- A field that ends below 2^24 is the same under every configuration whose sizes agree. -/
theorem rd24_under_of_lt (m : Memory) (a : Addr) {k : Nat} {cfg : Config} (h : cfg.Agrees) (hk : a.toNat + k + 2 < 16777216) :
    rd24 m a k cfg = rd24 m a k := by
  rw [rd24_under m a k h, rd24_eq, memRead_of_lt m h (by omega), memRead_of_lt m h (by omega), memRead_of_lt m h hk]

/-! R48's pseudocode under any configuration. -/

@[simp] theorem executeOne_q (s : State) (cfg : Config) : (executeOne s cfg).q = s.q := rfl

/-- R48's pseudocode reads the configuration through its three fields and its data read only, so it is the table's where the window has
no byte past the top. -/
theorem executeOne_under_of_le (s : State) {cfg : Config} (h : cfg.Agrees) (hpc : s.pc.toNat ≤ 0xFFFFF7) :
    executeOne s cfg = executeOne s := by
  have field : ∀ (m : Memory) (k : Nat), k ≤ 6 → rd24 m s.pc k cfg = rd24 m s.pc k := fun m k hk =>
    rd24_under_of_lt m s.pc h (by omega)
  have data : ∀ a : Addr, memRead s.mem (addrIndex a) cfg = memRead s.mem (addrIndex a) := fun a => by
    rw [memRead_addrIndex s.mem a h, memRead_addrIndex s.mem a Config.table_agrees]
  simp only [executeOne, h.fieldBytes_eq, Config.table_fieldBytes, field _ 0 (by decide), field _ 3 (by decide),
    field _ (2 * 3) (by decide), data]

/-- Fetching, decoding and running the instruction is R48's pseudocode, under every configuration whose sizes agree: the one difference,
that field C is read before the write and patched, is made up for by the patch. -/
theorem fetchAndRun_execUnder (s : State) {cfg : Config} (h : cfg.Agrees) :
    fetchAndRun (execUnder cfg) s cfg = .next (executeOne s cfg) := by
  have width : 8 * cfg.fieldBytes = addrBits := h.field_bytes.trans h.addr_width
  rw [fetchAndRun, decode_fetchWindow_under s.mem s.pc h.instr_bytes]
  simp only [execUnder, execCbj, targetAfterWrite_eq_rd24_under s.mem s.pc _ _ width]
  rfl

/-! The statements. -/

/-- Settles O54: the boundary phase is common to both sides, and the fetched instruction is the pseudocode. -/
theorem stepUnderEveryConfiguration : Obligations.StepUnderEveryConfiguration := by
  intro cfg s h
  constructor
  · rw [stepUnder, frameStep, fetchAndRun_execUnder _ h, andThen_next]
  · rw [State.countInstruction_q, executeOne_q, boundaryIfDue_q]

/-- With agreeing sizes and the modulo reading the instruction at 0xFFFFFF has its other eight bytes at 0 to 7 (C1). -/
theorem decode_fetchWindow_top_of_modulo (m : Memory) {cfg : Config} (h : cfg.Agrees) (hp : cfg.padReadsZero = false) :
    decode (fetchWindow m 0xFFFFFF cfg) cfg = .ok (.cbj (joinField (m.read 0xFFFFFF) (m.read 0) (m.read 1))
      (joinField (m.read 2) (m.read 3) (m.read 4)) (joinField (m.read 5) (m.read 6) (m.read 7)), []) := by
  have top : memRead m 0xFFFFFF cfg = m.read 0xFFFFFF := memRead_of_lt m h (by decide)
  have past : ∀ j : Nat, memRead m (16777216 + j) cfg = m.read j := fun j => by
    rw [memRead_of_modulo m h hp (Nat.le_add_right _ _), Nat.add_sub_cancel_left]
  rw [decode_fetchWindow_under m _ h.instr_bytes, h.fieldBytes_eq, rd24_under m _ _ h, rd24_under m _ _ h, rd24_under m _ _ h,
    ← past 0, ← past 1, ← past 2, ← past 3, ← past 4, ← past 5, ← past 6, ← past 7, ← top]
  rfl

/-- Settles O55: an index of a fetch is below 2^24 or past the top, and there the parameter chooses the reading. -/
theorem padReadingsDifferOnlyPastTheTop : Obligations.PadReadingsDifferOnlyPastTheTop := by
  refine ⟨fun cfg m pc k h hk => ⟨?_, ?_, ?_⟩, fun cfg m h hp => decode_fetchWindow_top_of_modulo m h hp,
    fun cfg s h hpc => executeOne_under_of_le s h hpc⟩
  · exact fun below => memRead_of_lt m h below
  · exact fun past hp => memRead_of_modulo m h hp past
  · exact fun past hp hz => memRead_of_padZero h hp hz past (fetchIndex_lt_arraySize h pc hk)

/-- Settles O58: a block of the last page ends in the address space, every address is below MEM_SIZE, and the PC reload field is read like
the first bytes of a fetch. -/
theorem agreeingSizesKeepAccessesInTheArray : Obligations.AgreeingSizesKeepAccessesInTheArray := by
  intro cfg m h
  refine ⟨fun pc k hk => fetchIndex_lt_arraySize h pc hk, fun i hi => ?video, fun i hi => ?audio, fun a => ?data, fun j hj => ?reload⟩
  case video => exact Nat.lt_of_lt_of_le (Nat.add_lt_add_of_le_of_lt (videoBase_le m cfg) hi) h.video_page
  case audio => exact Nat.lt_of_lt_of_le (Nat.add_lt_add_of_le_of_lt (audioBase_le m cfg) hi) h.audio_page
  case data => rw [h.memSize_eq]; exact addr_toNat_lt a
  case reload =>
    have short : cfg.fieldBytes ≤ cfg.instrBytes := by rw [h.instr_bytes]; omega
    exact fetchIndex_lt_arraySize h _ (Nat.lt_of_lt_of_le hj short)

/-- IPMS at the table's IPF and FPS (R68). -/
theorem ipms_table : Config.ipms = 98304 / 25 := by
  rw [Config.ipms, Config.table_ipf, Config.table_fps]
  norm_num

/-- Settles O32: 65536 * 60 / 1000 in lowest terms, and its product with the frame time. -/
theorem rateConstantIsExact : Obligations.RateConstantIsExact :=
  ⟨ipms_table, by rw [ipms_table]; norm_num⟩

/-- Settles O53: the record's defaults are the table's values as written, and the machine's own operations are those under it. -/
theorem machineHasTheTableConfiguration : Obligations.MachineHasTheTableConfiguration := by
  refine ⟨?sizes, Config.table_agrees, rfl, rfl, ?values, ⟨rfl, rfl, rfl⟩, fun i s => ?exec, fun s => (stepUnder_table s).symm, rfl⟩
  case sizes => exact ⟨rfl, rfl, rfl, rfl, rfl, rfl, rfl, rfl, rfl, rfl⟩
  case values => exact ⟨rfl, rfl, rfl, rfl, rfl, rfl, rfl, rfl, rfl, rfl, rfl, rfl⟩
  case exec => rw [execUnder_table]

end Sys2Proof.Machine
end

section
/-! SUPPORT. Proofs about the state's fields: the values at VM start, and which fields an instruction and a step neither read nor write
(spec/ R11, R16, R19, R20). -/

namespace Sys2Proof.Machine

/-! The Pacer's registers stand beside the step (R16, R19). -/

section
variable (s : State) (acc speed : ℚ) (paused : Bool)

/-- Whether a boundary phase is due, and what it does, is the same whatever the Pacer's registers hold. -/
theorem boundaryIfDue_with_pacer :
    boundaryIfDue { s with acc := acc, speed := speed, paused := paused } =
      { boundaryIfDue s with acc := acc, speed := speed, paused := paused } := by
  by_cases due : s.q = 0
  · rw [boundaryIfDue_of_due due, boundaryIfDue_of_due (s := { s with acc := acc, speed := speed, paused := paused }) due]
    rfl
  · rw [boundaryIfDue_of_not_due due,
      boundaryIfDue_of_not_due (s := { s with acc := acc, speed := speed, paused := paused }) due]

/-- The state a step leads to is the same but for the Pacer's registers, which keep their values. -/
theorem afterStep_with_pacer :
    afterStep { s with acc := acc, speed := speed, paused := paused } =
      { afterStep s with acc := acc, speed := speed, paused := paused } := by
  rw [afterStep, boundaryIfDue_with_pacer]
  rfl

end

/-! An instruction reads memory and the program counter (R11). -/

/-- A data read depends on memory alone. -/
theorem readData_congr {s s' : State} (h : s.mem = s'.mem) (a : Addr) : s.readData a = s'.readData a := by
  rw [readData_eq, readData_eq, h]

/-! The statements. -/

/-- Settles O27: the step answers `afterStep` from both states, and that commutes with the setting of the Pacer's registers. -/
theorem stepIgnoresThePacer : Obligations.StepIgnoresThePacer := by
  intro s acc speed paused
  rw [step_next, step_next, andThen_next, afterStep_with_pacer]

/-- Settles O18: the byte copied is a read of memory, the jump target is made from the program counter, the fields and that byte. -/
theorem instructionReadsOnlyMemoryAndPc : Obligations.InstructionReadsOnlyMemoryAndPc := by
  intro i s s' hmem hpc
  cases i with
  | cbj a b c =>
    have byte : s.readData a = s'.readData a := readData_congr hmem a
    refine ⟨_, _, execCbj_next a b c s, execCbj_next a b c s', ?mem, ?pc⟩
    case mem => rw [State.jumpTo_mem, State.jumpTo_mem, State.writeData_mem, State.writeData_mem, hmem, byte]
    case pc => rw [State.jumpTo_pc, State.jumpTo_pc, hpc, byte]

/-- Settles O47: the array lists no byte, so every index reads zero, and each register is at the value R20 or D5 gives. -/
theorem vmStartValues : Obligations.VmStartValues := by
  refine ⟨fun i => ?zeroed, State.reset_speed, State.reset_pc, State.reset_q, State.reset_frames, State.reset_keys, State.reset_acc,
    State.reset_paused, State.reset_emitted⟩
  case zeroed => rw [State.reset_mem, memRead_eq, Memory.read_nil]

/-- Settles O48: the empty array is in canonical form and its pad reads zero, and the registers are at their values of VM start. -/
theorem invariantAtReset : Obligations.InvariantAtReset where
  mem_wf := Memory.wf_reset
  pad_zero := fun i _ _ => Memory.read_nil i
  quota := by simp
  pacer := ⟨by rw [State.reset_acc], by rw [State.reset_speed]; exact zero_le_one⟩

end Sys2Proof.Machine
end

section
/-! SUPPORT. Proofs about memory: which bytes an access reads and a write changes (spec/ R23 to R32), and the invariant of the core, kept
by each operation on the state, so by a step, by a host operation and along every run (R13, R16, R25). -/

namespace Sys2Proof.Machine

/-! The pad lies outside the address space, so no write changes it (R24, R25). -/

/-- A write at an address changes no byte past the address space. -/
theorem read_memWrite_of_past (m : Memory) (b : Addr) (v : Byte) {i : Nat} (hi : 16777216 ≤ i) :
    (memWrite m b v).read i = m.read i := by
  have hb := addr_toNat_lt b
  rw [read_memWrite, if_neg (by omega)]

theorem Memory.padZero.memWrite {m : Memory} (h : m.padZero) (b : Addr) (v : Byte) : (memWrite m b v).padZero := by
  intro i past inArray
  rw [read_memWrite_of_past m b v past]
  exact h i past inArray

/-- An image is cut at MEM_SIZE, so a load leaves the pad zero (R63, R65). -/
theorem padZero_imageMemory (bytes : List Byte) : (imageMemory bytes).padZero := by
  intro i past _
  have cut : (bytes.take Config.table.memSize).length ≤ Config.table.memSize := List.length_take_le _ _
  rw [imageMemory, Memory.read_ofBytes, dif_neg (by omega)]

/-! What each operation on the state does to the invariant. -/

section
variable {s : State} (h : s.Inv)
include h

theorem State.Inv.jumpTo (target : Addr) : (s.jumpTo target).Inv := ⟨h.mem_wf, h.pad_zero, h.quota, h.pacer⟩

theorem State.Inv.countInstruction : s.countInstruction.Inv :=
  ⟨h.mem_wf, h.pad_zero, Nat.mod_lt _ (by decide), h.pacer⟩

theorem State.Inv.writeData (b : Addr) (v : Byte) : (s.writeData b v).Inv :=
  ⟨memWrite_wf b v h.mem_wf, h.pad_zero.memWrite b v, h.quota, h.pacer⟩

theorem State.Inv.boundary : (boundary s).Inv where
  mem_wf := memWrite_wf _ _ (memWrite_wf _ _ h.mem_wf)
  pad_zero := (h.pad_zero.memWrite _ _).memWrite _ _
  quota := h.quota
  pacer := h.pacer

theorem State.Inv.boundaryIfDue : (boundaryIfDue s).Inv := by
  by_cases due : s.q = 0
  · rw [boundaryIfDue_of_due due]
    exact h.boundary
  · rw [boundaryIfDue_of_not_due due]
    exact h

/-- A step is a boundary phase, if due, one write, one jump and the count, and each keeps the invariant. -/
theorem State.Inv.afterStep : (afterStep s).Inv := ((h.boundaryIfDue.writeData _ _).jumpTo _).countInstruction

theorem State.Inv.sampleKeys (draws : List KeyState) : (s.sampleKeys draws).Inv := ⟨h.mem_wf, h.pad_zero, h.quota, h.pacer⟩

/-- The pacer spends from a carry of at least one only, so the carry does not go negative (R72). -/
theorem State.Inv.spend (whole : 1 ≤ s.acc) : s.spend.Inv :=
  ⟨h.mem_wf, h.pad_zero, h.quota, by rw [State.spend_acc]; exact sub_nonneg.2 whole, h.pacer.2⟩

/-- What a tick adds to the carry is a product of three numbers that are not negative (R69, R70). -/
theorem State.Inv.accumulate {e : ℚ} (he : 0 ≤ e) : (s.accumulate e).Inv where
  mem_wf := h.mem_wf
  pad_zero := h.pad_zero
  quota := h.quota
  pacer := by
    obtain ⟨acc_nonneg, speed_nonneg⟩ := h.pacer
    have rate_nonneg : 0 ≤ Config.ipms := by rw [ipms_table]; norm_num
    have elapsed_nonneg : 0 ≤ clampElapsed e := by
      rw [clampElapsed_table]
      exact le_min he (by norm_num)
    refine ⟨?_, speed_nonneg⟩
    rw [State.accumulate_acc]
    positivity

end

/-- A loop with fuel for the whole part of the carry ends in a state of the invariant whose carry is below 1 (R72): each turn takes one
from the fuel and one from the carry. -/
theorem drain_keeps_inv (fuel : Nat) (draws : List KeyState) {s t : State} (h : s.Inv) (enough : s.acc < fuel + 1)
    (run : drain fuel draws s = .next t) : t.Inv ∧ t.acc < 1 := by
  induction fuel generalizing draws s with
  | zero =>
    rw [drain_zero] at run
    cases run
    exact ⟨h, by simpa using enough⟩
  | succ fuel ih =>
    by_cases whole : 1 ≤ s.acc
    · rw [drain_turn fuel draws s whole] at run
      have stepped : (afterStep (s.sampleKeys draws)).acc = s.acc := by simp
      refine ih _ ((h.sampleKeys draws).afterStep.spend (stepped ▸ whole)) ?_ run
      rw [State.spend_acc, stepped]
      push_cast at enough
      linarith
    · rw [drain_stop (fuel + 1) draws s (not_le.1 whole)] at run
      cases run
      exact ⟨h, not_le.1 whole⟩

/-- A tick that answers a next state keeps the invariant, and if it was not paused it leaves a carry below 1 (R69, R72, R74). -/
theorem tick_keeps_inv (e : ℚ) (draws : List KeyState) {s t : State} (h : s.Inv) (run : tick e draws s = .next t) :
    t.Inv ∧ (s.paused = false → t.acc < 1) := by
  by_cases he : e < 0
  · rw [tick_negative he] at run
    cases run
  have elapsed : 0 ≤ e := not_lt.1 he
  cases paused : s.paused with
  | true =>
    rw [tick_paused elapsed draws paused] at run
    cases run
    exact ⟨h, nofun⟩
  | false =>
    rw [tick_running elapsed draws paused] at run
    obtain ⟨inv, below⟩ := drain_keeps_inv _ draws (h.accumulate elapsed) (Nat.lt_floor_add_one _) run
    exact ⟨inv, fun _ => below⟩

/-- A speed that is accepted is not negative (R73, R76). -/
theorem setSpeed_keeps_inv (m : ℚ) {s t : State} (h : s.Inv) (run : setSpeed m s = .next t) : t.Inv := by
  rw [setSpeed] at run
  split at run
  · cases run
  · next accepted =>
    cases run
    exact ⟨h.mem_wf, h.pad_zero, h.quota, h.pacer.1, not_lt.1 accepted⟩

/-- The invariant along a host operation, case by case (R66). -/
theorem hostOp_keeps_inv (op : HostOp) {s t : State} (h : s.Inv) (run : hostOp op s = .next t) : t.Inv := by
  cases op with
  | loadProgram bytes =>
    cases run
    exact ⟨Memory.wf_imageMemory bytes, padZero_imageMemory bytes, (by decide : 0 < Config.table.ipf), h.pacer⟩
  | tick e draws => exact (tick_keeps_inv e draws h run).1
  | setSpeed m => exact setSpeed_keeps_inv m h run
  | setPaused b =>
    cases run
    exact ⟨h.mem_wf, h.pad_zero, h.quota, h.pacer⟩
  | setKeys k =>
    cases run
    exact ⟨h.mem_wf, h.pad_zero, h.quota, h.pacer⟩

/-! The statements on the invariant. -/

/-- Settles O49: the one state a step can answer is `afterStep`, which keeps the invariant. -/
theorem stepKeepsTheInvariant : Obligations.StepKeepsTheInvariant := by
  intro s t h run
  rw [step_next] at run
  cases run
  exact h.afterStep

/-- Settles O50: the invariant by the kind of operation, and the carry of a tick by induction on its loop. -/
theorem hostOperationKeepsTheInvariant : Obligations.HostOperationKeepsTheInvariant := by
  intro op s t h run
  refine ⟨hostOp_keeps_inv op h run, ?_⟩
  rintro e draws rfl running
  exact (tick_keeps_inv e draws h run).2 running

/-- Every reachable state has the invariant: VM start has it, and steps and host operations keep it. -/
theorem Reachable.inv {s : State} (reach : Reachable s) : s.Inv := by
  induction reach with
  | reset => exact invariantAtReset
  | step _ run ih => exact stepKeepsTheInvariant _ _ ih run
  | hostOp op _ run ih => exact hostOp_keeps_inv op ih run

/-- Settles O51: the invariant of a reachable state has a zero pad, and a fetch past the top reads a pad byte. -/
theorem padIsZeroWheneverReachable : Obligations.PadIsZeroWheneverReachable := by
  intro s reach
  have zero : s.mem.padZero := reach.inv.pad_zero
  refine ⟨zero, fun pc k past => ?_⟩
  exact memRead_of_padZero Config.table_agrees rfl zero past (fetchIndex_lt_arraySize Config.table_agrees pc k.isLt)

/-! The statements on single accesses. -/

/-- Settles O7: an index is the address of the write or it keeps its byte. -/
theorem writeSetsExactlyItsByte : Obligations.WriteSetsExactlyItsByte := by
  intro m a v i
  exact memRead_memWrite m a v i

/-- Settles O8: the three bytes join to the big-endian value, which an address holds without loss. -/
theorem rd24IsBigEndian : Obligations.Rd24IsBigEndian := by
  intro m a k i₀ i₁ i₂ high mid low
  refine ⟨?_, addr_toNat_lt (rd24 m a k)⟩
  rw [high, mid, low, rd24_eq, joinField_toNat, memRead_eq, memRead_eq, memRead_eq]

/-- Settles O9: the blocks by the bound that agreeing sizes give, a write by the address it names, the latch and the reload by the bytes
they touch; the highest pages are those of three bytes 0xFF. -/
theorem accessesStayInTheArray : Obligations.AccessesStayInTheArray := by
  have blocks := fun m => agreeingSizesKeepAccessesInTheArray .table m Config.table_agrees
  refine ⟨fun pc k => ⟨rfl, ?fetch⟩, rfl, fun m i => ?video, fun m i => ?audio, ⟨[(5, 0xFF), (6, 0xFF), (7, 0xFF)], by decide, by decide⟩,
    fun s a => ⟨rfl, rfl, Nat.le_of_lt_succ (addr_toNat_lt a)⟩, fun m b v i past => read_memWrite_of_past m b v past,
    fun s i above => ?latch, fun s => rd24_zero s.mem 2⟩
  case fetch =>
    have hpc := addr_toNat_lt pc
    rw [fetchIndex_eq]
    omega
  case video =>
    obtain ⟨-, video, -⟩ := blocks m
    exact Nat.le_of_lt_succ (video i i.isLt)
  case audio =>
    obtain ⟨-, -, audio, -⟩ := blocks m
    exact Nat.le_of_lt_succ (audio i i.isLt)
  case latch => rw [read_latchKeys, if_neg (by omega), if_neg (by omega)]

/-- Settles O11: the memory after a CBJ is the memory before it with one write, at B, of the byte at A. -/
theorem nextFetchSeesTheWrite : Obligations.NextFetchSeesTheWrite := by
  intro a b c s
  refine ⟨_, execCbj_next a b c s, fun pc k => ?_⟩
  rw [State.jumpTo_mem, State.writeData_mem]
  exact memRead_memWrite s.mem b (s.readData a) (fetchIndex pc k)

end Sys2Proof.Machine
end

section
/-! SUPPORT. Proofs about the encoding: what a byte string that decodes looks like, and the fields as slices of the window's 72-bit
value (spec/ R40 to R43). -/

namespace Sys2Proof

/-! What decodes is an encoding (R41, R42). -/

/-- A computation that answers has a first part that answers and a second part that answers from there. -/
theorem bind_eq_ok {ε α β : Type} {x : Except ε α} {f : α → Except ε β} {r : β} (h : x >>= f = .ok r) :
    ∃ a, x = .ok a ∧ f a = .ok r := by
  cases x with
  | error e => cases h
  | ok a => exact ⟨a, rfl, h⟩

/-- The bytes taken off are the first n, and the rest follows them. -/
theorem takeBytes_eq_ok {n : Nat} {bytes taken rest : List Byte} (h : takeBytes n bytes = .ok (taken, rest)) :
    bytes = taken ++ rest ∧ taken.length = n := by
  induction n generalizing bytes taken with
  | zero =>
    cases h
    exact ⟨rfl, rfl⟩
  | succ n ih =>
    cases bytes with
    | nil => cases h
    | cons b tail =>
      rw [takeBytes] at h
      split at h
      · next more after took =>
        cases h
        obtain ⟨rfl, rfl⟩ := ih took
        exact ⟨rfl, rfl⟩
      · cases h

/-- The bytes a field is taken from are the field's own, where a field is as wide as an address. -/
theorem takeField_eq_ok {bytes rest : List Byte} {a : Addr} {cfg : Config} (width : 8 * cfg.fieldBytes = addrBits)
    (h : takeField bytes cfg = .ok (a, rest)) : bytes = fieldBytes a cfg ++ rest := by
  rw [takeField] at h
  split at h
  · next field after took =>
    cases h
    obtain ⟨rfl, len⟩ := takeBytes_eq_ok took
    rw [fieldBytes_joinBytes len width]
  · cases h

/-- What decodes is the instruction's encoding followed by the rest: each of the three fields is the bytes it was taken from. -/
theorem decode_eq_ok {bytes rest : List Byte} {i : Instr} {cfg : Config} (width : 8 * cfg.fieldBytes = addrBits)
    (h : decode bytes cfg = .ok (i, rest)) : bytes = encode i cfg ++ rest := by
  obtain ⟨⟨a, afterA⟩, first, h⟩ := bind_eq_ok h
  obtain ⟨⟨b, afterB⟩, second, h⟩ := bind_eq_ok h
  obtain ⟨⟨c, afterC⟩, third, h⟩ := bind_eq_ok h
  cases h
  rw [takeField_eq_ok width first, takeField_eq_ok width second, takeField_eq_ok width third, encode, List.append_assoc,
    List.append_assoc]

/-- An encoding decodes to its instruction, whatever follows it (R41, R42, R46). -/
theorem decode_encode_append (i : Instr) (rest : List Byte) : decode (encode i ++ rest) = .ok (i, rest) := by
  cases i with
  | cbj a b c =>
    rw [encode, List.append_assoc, List.append_assoc,
      decode_fields rest (fieldBytes_length a _) (fieldBytes_length b _) (fieldBytes_length c _)]
    simp only [joinBytes_fieldBytes]

/-- A byte string of an instruction's length decodes, with nothing left (R43). -/
theorem decode_of_length {bytes : List Byte} (h : bytes.length = 9) : ∃ a b c : Addr, decode bytes = .ok (.cbj a b c, []) := by
  match bytes, h with
  | [b0, b1, b2, b3, b4, b5, b6, b7, b8], _ => exact ⟨_, _, _, decode_nine b0 b1 b2 b3 b4 b5 b6 b7 b8 []⟩

/-! Fields as bit slices (R40). -/

/-- A field whose bytes are digits n + 2, n + 1 and n of a value in base 256 is the slice of 24 bits from bit 8 * n up. -/
theorem joinField_eq_extractLsb' {width : Nat} {w : BitVec width} {n : Nat} {high mid low : Byte}
    (hHigh : high.toNat = w.toNat / 256 ^ (n + 2) % 256) (hMid : mid.toNat = w.toNat / 256 ^ (n + 1) % 256)
    (hLow : low.toNat = w.toNat / 256 ^ n % 256) : joinField high mid low = w.extractLsb' (8 * n) 24 := by
  apply BitVec.eq_of_toNat_eq
  have shift : (2 : Nat) ^ (8 * n) = 256 ^ n := Nat.pow_mul 2 8 n
  have above : ∀ k, w.toNat / 256 ^ (n + k) = w.toNat / 256 ^ n / 256 ^ k := fun k => by rw [Nat.pow_add, Nat.div_div_eq_div_mul]
  rw [joinField_toNat, hHigh, hMid, hLow, above, above, BitVec.extractLsb'_toNat, Nat.shiftRight_eq_div_pow, shift]
  generalize w.toNat / 256 ^ n = v
  show _ = v % 16777216
  omega

namespace Machine

/-- The field that leaves n bytes of the window after it is the slice from bit 8 * n up of the window's value. -/
theorem rd24_eq_extractLsb' {m : Memory} {pc : Addr} {w : BitVec 72}
    (bytes : ∀ k : Fin 9, (memRead m (fetchIndex pc k)).toNat = w.toNat / 256 ^ (8 - k.val) % 256) {k n : Nat} (place : k + n = 6) :
    rd24 m pc k = w.extractLsb' (8 * n) 24 := by
  have digit : ∀ j d : Nat, j + d = 8 → (m.read (pc.toNat + j)).toNat = w.toNat / 256 ^ d % 256 := by
    intro j d sum
    have byte := bytes ⟨j, by omega⟩
    rw [memRead_eq, fetchIndex_eq] at byte
    rw [byte, Nat.sub_eq_of_eq_add' sum.symm]
  rw [rd24_eq]
  exact joinField_eq_extractLsb' (digit k (n + 2) (by omega)) (digit (k + 1) (n + 1) (by omega)) (digit (k + 2) n (by omega))

/-! The statements. -/

/-- Settles O2: an encoding is three fields of three bytes, and each field taken off a byte string is the bytes it was taken from. -/
theorem decodeAndEncodeAgree : Obligations.DecodeAndEncodeAgree :=
  ⟨fun i rest _ => decode_encode_append i rest, fun _ _ _ h => decode_eq_ok (cfg := .table) rfl h⟩

/-- Settles O3: nine bytes are three fields, what decodes is its own encoding, and `CBJ` answers a next state in every state. -/
theorem everyNineBytesAreACbj : Obligations.EveryNineBytesAreACbj := by
  intro bytes len
  obtain ⟨a, b, c, decoded⟩ := decode_of_length len
  have encoded : bytes = encode (.cbj a b c) ++ [] := decode_eq_ok (cfg := .table) rfl decoded
  rw [List.append_nil] at encoded
  exact ⟨a, b, c, decoded, encoded.symm, fun s => ⟨_, execCbj_next a b c s⟩⟩

/-- Settles O4: the window decodes to the three fields read from memory, which leave 6, 3 and 0 bytes of it after them. -/
theorem windowFieldsAreBitSlices : Obligations.WindowFieldsAreBitSlices := by
  refine ⟨encode_length, fun m pc w bytes => ?_⟩
  have a : rd24 m pc 0 = w.extractLsb' 48 24 := rd24_eq_extractLsb' bytes (n := 6) rfl
  have b : rd24 m pc 3 = w.extractLsb' 24 24 := rd24_eq_extractLsb' bytes (n := 3) rfl
  have c : rd24 m pc 6 = w.extractLsb' 0 24 := rd24_eq_extractLsb' bytes (n := 0) rfl
  rw [decode_fetchWindow, a, b, c]

end Machine
end Sys2Proof
end

section
/-! SUPPORT. Proofs about the one instruction: the byte it copies, where its jump goes, and that no run of it stops (spec/ R48 to R52). -/

namespace Sys2Proof.Machine

/-! Where the jump goes when the write is at a byte of the instruction's own field C (R50). -/

section
variable {pc b : Addr} (c : Addr) (v : Byte)

theorem targetAfterWrite_high (h : b.toNat = pc.toNat + 6) :
    targetAfterWrite pc b c v = joinField v (fieldMid c) (fieldLow c) := by
  rw [targetAfterWrite_eq, if_pos (by omega), if_neg (by omega), if_neg (by omega)]

theorem targetAfterWrite_mid (h : b.toNat = pc.toNat + 7) :
    targetAfterWrite pc b c v = joinField (fieldHigh c) v (fieldLow c) := by
  rw [targetAfterWrite_eq, if_neg (by omega), if_pos (by omega), if_neg (by omega)]

theorem targetAfterWrite_low (h : b.toNat = pc.toNat + 8) :
    targetAfterWrite pc b c v = joinField (fieldHigh c) (fieldMid c) v := by
  rw [targetAfterWrite_eq, if_neg (by omega), if_neg (by omega), if_pos (by omega)]

end

/-- A field read again after a write is as it was exactly when the write is outside it or gives its byte the value it had: each of its
three bytes is the one written or is kept (R49, R50). -/
theorem rd24_memWrite_eq_self_iff (m : Memory) (pc b : Addr) (v : Byte) (k : Nat) :
    rd24 (memWrite m b v) pc k = rd24 m pc k ↔
      (pc.toNat + k ≤ b.toNat → b.toNat ≤ pc.toNat + k + 2 → m.read b.toNat = v) := by
  have byte : ∀ i, (memWrite m b v).read i = m.read i ↔ (i = b.toNat → m.read b.toNat = v) := by
    intro i
    rw [read_memWrite, ite_eq_right_iff]
    exact forall_congr' fun here => by rw [here, eq_comm]
  rw [rd24_eq, rd24_eq, joinField_inj, byte, byte, byte]
  constructor
  · rintro ⟨high, mid, low⟩ above below
    have place : pc.toNat + k = b.toNat ∨ pc.toNat + k + 1 = b.toNat ∨ pc.toNat + k + 2 = b.toNat := by omega
    exact place.elim high (·.elim mid low)
  · intro same
    exact ⟨fun _ => same (by omega) (by omega), fun _ => same (by omega) (by omega), fun _ => same (by omega) (by omega)⟩

/-- A write of the value a byte has leaves a memory in canonical form the same data (R49). -/
theorem memWrite_self {m : Memory} (h : m.wf = true) (b : Addr) : memWrite m b (m.read b.toNat) = m := by
  refine Memory.ext_of_read (memWrite_wf b _ h) h fun i => ?_
  rw [read_memWrite, ite_eq_right_iff]
  exact fun here => by rw [here]

/-- The instruction at the program counter does what R48's pseudocode does (R48, R50). -/
theorem exec_fetched (s : State) : exec (fetched s) s = .next (executeOne s) := by
  rw [← runInstruction_eq, runInstruction, ← execUnder_table]
  exact fetchAndRun_execUnder s Config.table_agrees

/-- The pad is the array's last eight bytes (R9, R25). -/
theorem Memory.padZero.read_eq_zero {m : Memory} (zero : m.padZero) {i : Nat} (first : 16777216 ≤ i) (last : i < 16777224) :
    m.read i = 0 := zero i first last

/-- A field that lies in a zero pad is zero (R25, R45). -/
theorem rd24_of_padZero {m : Memory} (zero : m.padZero) {pc : Addr} {k : Nat} (first : 16777216 ≤ pc.toNat + k)
    (last : pc.toNat + k + 2 < 16777224) : rd24 m pc k = 0 := by
  rw [rd24_eq, zero.read_eq_zero first (by omega), zero.read_eq_zero (by omega) (by omega), zero.read_eq_zero (by omega) last]
  rfl

/-- With the pad zero the instruction at 0xFFFFFF has one byte that is not a pad byte, the high byte of field A (R51, D1). -/
theorem fetched_top {s : State} (zero : s.mem.padZero) (top : s.pc = 0xFFFFFF) :
    fetched s = .cbj (joinField (s.mem.read 0xFFFFFF) 0 0) 0 0 := by
  have place : s.pc.toNat = 0xFFFFFF := by rw [top]; rfl
  have fieldA : rd24 s.mem s.pc 0 = joinField (s.mem.read 0xFFFFFF) 0 0 := by
    rw [rd24_zero, place, zero.read_eq_zero (i := 0xFFFFFF + 1) (by decide) (by decide),
      zero.read_eq_zero (i := 0xFFFFFF + 2) (by decide) (by decide)]
  rw [fetched, fieldA, rd24_of_padZero zero (by omega) (by omega), rd24_of_padZero zero (by omega) (by omega)]

/-! The statements. -/

/-- Settles O12: the next state is one write and one jump; the write gives the byte at B, the place of B in or outside field C gives the
jump, and neither touches another field. -/
theorem cbjCopiesOneByteAndJumps : Obligations.CbjCopiesOneByteAndJumps := by
  intro a b c s
  have read (i : Nat) : memRead (memWrite s.mem b (s.readData a)) i =
      if i = b.toNat then memRead s.mem (addrIndex a) else memRead s.mem i := memRead_memWrite s.mem b (s.readData a) i
  refine ⟨_, execCbj_next a b c s, ?copied, fun i elsewhere => ?kept, targetAfterWrite_outside c _, targetAfterWrite_high c _,
    targetAfterWrite_mid c _, targetAfterWrite_low c _, rfl, rfl, rfl, rfl, rfl, rfl, rfl⟩
  case copied => rw [State.jumpTo_mem, State.writeData_mem, read, addrIndex_eq, if_pos rfl]
  case kept => rw [State.jumpTo_mem, State.writeData_mem, read, if_neg elsewhere]

/-- Settles O13: the window decodes to the three fields read from memory, and their instruction is the pseudocode. -/
theorem decodedRunIsThePseudocode : Obligations.DecodedRunIsThePseudocode :=
  fun s => ⟨fetched s, decode_fetchWindow s.mem s.pc, exec_fetched s⟩

/-- Settles O14: the jump goes to field C as read after the write, and that is the fetched C unless the write changes a byte of it. -/
theorem jumpDiffersExactlyWhenOwnFieldCChanges : Obligations.JumpDiffersExactlyWhenOwnFieldCChanges := by
  intro s a b c decoded
  rw [decode_fetchWindow] at decoded
  obtain ⟨rfl, rfl, rfl⟩ : rd24 s.mem s.pc 0 = a ∧ rd24 s.mem s.pc 3 = b ∧ rd24 s.mem s.pc 6 = c := by simpa using decoded
  refine ⟨_, execCbj_next _ _ _ s, ?_⟩
  rw [State.jumpTo_pc, targetAfterWrite_eq_rd24, Ne, rd24_memWrite_eq_self_iff, Classical.not_imp, Classical.not_imp, memRead_eq,
    memRead_eq, readData_eq]
  rfl

/-- Settles O15: the byte written at B is the byte B has. -/
theorem copyOfTheSameByteKeepsMemory : Obligations.CopyOfTheSameByteKeepsMemory := by
  intro a b c s canonical same
  have own : s.readData a = s.mem.read b.toNat := same.trans (memRead_eq ..)
  refine ⟨_, execCbj_next a b c s, ?_⟩
  rw [State.jumpTo_mem, State.writeData_mem, own, memWrite_self canonical]

/-- Settles O16: the fetched instruction has B = C = 0, and address 0 is not in its own field C. -/
theorem topInstructionCopiesToZero : Obligations.TopInstructionCopiesToZero := by
  intro s zero top
  obtain ⟨t, run, copied, kept, outside, -⟩ := cbjCopiesOneByteAndJumps (joinField (s.mem.read 0xFFFFFF) 0 0) 0 0 s
  have notInC : (0 : Addr).toNat < s.pc.toNat + 6 := Nat.succ_pos _
  refine ⟨t, ?_, outside (.inl notInC), ?_, kept⟩
  · rw [runInstruction_eq, fetched_top zero top, run]
  · rw [copied, memRead_eq s.mem (addrIndex 0xFFFFFF)]
    rfl

/-- Settles O22: by induction on the number of steps, each of which answers the next state `afterStep`. -/
theorem runsNeverStop : Obligations.RunsNeverStop := by
  intro n
  induction n with
  | zero => exact fun s => ⟨s, rfl⟩
  | succ n ih =>
    intro s
    rw [run_succ]
    exact ih (afterStep s)

end Sys2Proof.Machine
end

section
/-! SUPPORT. Proofs about the frame controller: the boundary phase, the step, the frame as a run of steps, and the program load (spec/
R55 to R65). -/

namespace Sys2Proof.Machine

/-! One step (R56). -/

/-- The state a step leads to, by R48's pseudocode. -/
theorem afterStep_eq_executeOne (s : State) : afterStep s = (executeOne (boundaryIfDue s)).countInstruction := by
  have answer : step s = .next (executeOne (boundaryIfDue s)).countInstruction := by rw [step_eq, exec_fetched, andThen_next]
  rw [step_next] at answer
  exact Host.Outcome.next.inj answer

theorem afterStep_mem_eq (s : State) : (afterStep s).mem = (executeOne (boundaryIfDue s)).mem := by
  rw [afterStep_eq_executeOne, State.countInstruction_mem]

theorem afterStep_pc_eq (s : State) : (afterStep s).pc = (executeOne (boundaryIfDue s)).pc := by
  rw [afterStep_eq_executeOne, State.countInstruction_pc]

/-- What a window decodes to is the instruction fetched from it. -/
theorem eq_fetched_of_decode {s : State} {i : Instr} {rest : List Byte} (decoded : decode (fetchWindow s.mem s.pc) = .ok (i, rest)) :
    i = fetched s := by
  rw [decode_fetchWindow] at decoded
  cases decoded
  rfl

/-- A step is `exec` of what the window after the boundary phase, if due, decodes to, and the count (R42, R56). -/
theorem step_of_decode {s : State} {i : Instr} {rest : List Byte}
    (decoded : decode (fetchWindow (boundaryIfDue s).mem (boundaryIfDue s).pc) = .ok (i, rest)) :
    step s = andThen (exec i (boundaryIfDue s)) fun t => .next { t with q := (t.q + 1) % 65536 } := by
  rw [step_eq, ← eq_fetched_of_decode decoded]
  rfl

/-- Settles O19: the state an instruction starts from is the boundary phase's when q = 0 and the state itself otherwise. -/
theorem stepRunsTheDecodedInstruction : Obligations.StepRunsTheDecodedInstruction := by
  intro s i rest
  constructor
  · intro due decoded
    rw [← boundaryIfDue_of_due due] at decoded ⊢
    exact step_of_decode decoded
  · intro running decoded
    rw [← boundaryIfDue_of_not_due running] at decoded
    rw [step_of_decode decoded, boundaryIfDue_of_not_due running]

/-- Settles O20: the step answers `afterStep`, whose memory and PC are the pseudocode's. -/
theorem stepIsBoundaryThenInstruction : Obligations.StepIsBoundaryThenInstruction := by
  intro s
  refine ⟨afterStep s, step_next s, fun due => ?due, fun running => ?running, afterStep_q s, afterStep_keys s, afterStep_acc s,
    afterStep_speed s, afterStep_paused s⟩
  case due =>
    rw [afterStep_mem_eq, afterStep_pc_eq, afterStep_frames, afterStep_emitted, boundaryIfDue_of_due due, if_pos due]
    exact ⟨rfl, rfl, rfl, rfl⟩
  case running =>
    rw [afterStep_mem_eq, afterStep_pc_eq, afterStep_frames, afterStep_emitted, boundaryIfDue_of_not_due running, if_neg running]
    exact ⟨rfl, rfl, rfl, rfl⟩

/-- Settles O21: the latch gives the memory and leaves bytes 2 to 4 to the reload; every other field is written by one of the four
parts or by none. -/
theorem boundaryExtractsLatchesReloads : Obligations.BoundaryExtractsLatchesReloads := by
  intro s
  refine ⟨boundary_emitted s .table, fun i => ?memory, ?pc, rfl, rfl, rfl, rfl, rfl, rfl⟩
  case memory =>
    rw [memRead_eq, memRead_eq, boundary_mem, read_latchKeys]
    rfl
  case pc =>
    rw [boundary_pc_eq, joinField_toNat, memRead_eq, memRead_eq, memRead_eq]
    rfl

/-! The frame as a run of steps (R55, R60, R61). -/

/-- The host's run is the iterated step. -/
theorem run_eq_iterate (n : Nat) (s : State) : Host.Core.run Sys2Proof.core n s = .next (afterStep^[n] s) := by
  induction n generalizing s with
  | zero => rfl
  | succ n ih => rw [run_succ, ih, Function.iterate_succ_apply]

/-- R48's pseudocode, any number of times, writes memory and the program counter only. -/
theorem iterate_executeOne_eq (n : Nat) (s : State) :
    executeOne^[n] s = { s with mem := (executeOne^[n] s).mem, pc := (executeOne^[n] s).pc } := by
  induction n with
  | zero => rfl
  | succ n ih =>
    rw [Function.iterate_succ_apply', executeOne, ih]

/-- With no boundary due a step is R48's pseudocode, which does not look at the quota counter, and the count. -/
theorem afterStep_with_q {q : Nat} (running : q ≠ 0) (s : State) :
    afterStep { s with q := q } = { executeOne s with q := (q + 1) % 65536 } := by
  rw [afterStep_eq_executeOne, boundaryIfDue_of_not_due (s := { s with q := q }) running]
  rfl

/-- Up to the end of a frame the steps are a boundary phase, if one is due at the start, and R48's pseudocode that many times: q is not
0 again before the frame ends (R56, R61). -/
theorem iterate_afterStep_in_frame {s : State} {n : Nat} (steps : 0 < n) (inFrame : s.q + n ≤ 65536) :
    afterStep^[n] s = { executeOne^[n] (boundaryIfDue s) with q := (s.q + n) % 65536 } := by
  induction n, steps using Nat.le_induction with
  | base =>
    rw [Function.iterate_one, Function.iterate_one, afterStep_eq_executeOne, State.countInstruction, executeOne_q, boundaryIfDue_q]
    rfl
  | succ n steps ih =>
    have q : (s.q + n) % 65536 = s.q + n := Nat.mod_eq_of_lt (by omega)
    rw [Function.iterate_succ_apply', ih (by omega), q, afterStep_with_q (by omega), Function.iterate_succ_apply', Nat.add_assoc]

/-- A frame, all of it or its first steps, from the boundary phase on: one frame counted, one extraction's events (R60, R61). -/
theorem iterate_afterStep_from_boundary {s : State} (due : s.q = 0) {n : Nat} (steps : 0 < n) (inFrame : n ≤ 65536) :
    afterStep^[n] s = { boundary s with
      mem := (executeOne^[n] (boundary s)).mem, pc := (executeOne^[n] (boundary s)).pc, q := n % 65536 } := by
  rw [iterate_afterStep_in_frame steps (by omega), iterate_executeOne_eq, boundaryIfDue_of_due due, due, Nat.zero_add]

/-- Settles O23: n steps from the boundary phase on are within the frame. -/
theorem frameIsBoundaryThenQuota : Obligations.FrameIsBoundaryThenQuota := by
  intro s n due steps inFrame
  refine ⟨afterStep^[n] s, run_eq_iterate n s, ?_⟩
  rw [iterate_afterStep_from_boundary due steps inFrame]
  exact ⟨rfl, rfl, rfl, rfl, rfl⟩

/-- From within a frame, its remaining steps lead to the next boundary, with no frame counted and no event on the way. -/
theorem iterate_afterStep_to_boundary {s : State} (running : s.q ≠ 0) {k : Nat} (rest : s.q + k = 65536) (steps : 0 < k) :
    (afterStep^[k] s).q = 0 ∧ (afterStep^[k] s).frames = s.frames ∧ (afterStep^[k] s).emitted = s.emitted := by
  rw [iterate_afterStep_in_frame steps (Nat.le_of_eq rest), boundaryIfDue_of_not_due running, iterate_executeOne_eq, rest]
  exact ⟨rfl, rfl, rfl⟩

/-- Settles O24: the one boundary is at the start when q = 0; otherwise it comes after the 65,536 - q steps left of the frame, and the q
steps after it are in the next frame. -/
theorem quotaOfStepsHasOneBoundary : Obligations.QuotaOfStepsHasOneBoundary := by
  intro s range
  by_cases due : s.q = 0
  · obtain ⟨t, run, -, -, q, frames, emitted⟩ := frameIsBoundaryThenQuota s 65536 due (by decide) (by decide)
    exact ⟨t, run, frames, q.trans due.symm, 0, s, by decide, rfl, due, emitted⟩
  · obtain ⟨k, rest⟩ : ∃ k, s.q + k = 65536 := ⟨65536 - s.q, by omega⟩
    obtain ⟨atBoundary, frames, emitted⟩ := iterate_afterStep_to_boundary due rest (by omega)
    obtain ⟨t, run, -, -, q, frames', emitted'⟩ :=
      frameIsBoundaryThenQuota (afterStep^[k] s) s.q atBoundary (by omega) (by omega)
    refine ⟨t, ?_, by rw [frames', frames], by rw [q, Nat.mod_eq_of_lt range], k, afterStep^[k] s, by omega, run_eq_iterate k s,
      atBoundary, by rw [emitted', boundary_emitted, State.extract_emitted, emitted]⟩
    rw [run_eq_iterate] at run
    rw [← rest, run_eq_iterate, Function.iterate_add_apply, run]

/-- Settles O25: after a whole frame a boundary is due again, and it extracts the memory it finds. -/
theorem outputShowsTheFinishedFrame : Obligations.OutputShowsTheFinishedFrame := by
  intro s due
  obtain ⟨t, run, mem, -, q, -, emitted⟩ := frameIsBoundaryThenQuota s 65536 due (by decide) (by decide)
  have dueAgain : t.q = 0 := q
  refine ⟨t, afterStep t, run, step_next t, mem, ?_⟩
  rw [afterStep_emitted, boundaryIfDue_of_due dueAgain, boundary_emitted, State.extract_emitted, emitted, boundary_emitted,
    State.extract_emitted]

/-! The program load (R63, R65). -/

/-- The byte of an image at an index: the program's below MEM_SIZE, zero past its end and past the top. -/
theorem read_imageMemory (bytes : List Byte) (i : Nat) :
    (imageMemory bytes).read i = if i < 16777216 then bytes.getD i 0 else 0 := by
  rw [imageMemory, Memory.read_ofBytes, Config.table_memSize]
  simp only [Nat.zero_le, true_and, Nat.sub_zero, List.length_take, Nat.lt_min, List.getElem_take]
  by_cases below : i < 16777216
  · by_cases inside : i < bytes.length
    · rw [dif_pos ⟨below, inside⟩, if_pos below, List.getD_eq_getElem _ _ inside]
    · rw [dif_neg (inside ·.2), if_pos below, List.getD_eq_default _ _ (Nat.not_lt.1 inside)]
  · rw [dif_neg (below ·.1), if_neg below]

/-- Settles O29: the loaded memory is the image's. -/
theorem loadedMemoryIsTheImage : Obligations.LoadedMemoryIsTheImage := by
  intro bytes s
  refine ⟨_, rfl, fun i => ?_⟩
  rw [memRead_eq]
  exact read_imageMemory bytes i

/-- Settles O30: the memory is the image's, which is in canonical form. -/
theorem loadWritesMemoryAndQuotaOnly : Obligations.LoadWritesMemoryAndQuotaOnly :=
  fun bytes _ => ⟨imageMemory bytes, rfl, Memory.wf_imageMemory bytes⟩

end Sys2Proof.Machine
end

section
/-! SUPPORT. Proofs about the placing of a word: where the next step fetches, and that it finds the word's bytes there (log 7). -/

namespace Sys2Proof.Machine

/-- The word is what decodes, whatever is left over. -/
theorem decodeTableWord_eq_some {nbits w : Nat} {i : Instr} (word : decodeTableWord nbits w = some i) :
    ∃ rest, decode (tableBytes nbits w) = .ok (i, rest) := by
  rw [decodeTableWord] at word
  split at word
  · next i' rest decoded =>
    cases word
    exact ⟨rest, decoded⟩
  · cases word

/-- Bytes just written are read back. -/
theorem readBytes_writeBytes (m : Memory) (a : Nat) (bytes : List Byte) :
    readBytes (m.writeBytes a bytes) a bytes.length = bytes := by
  apply List.ext_getElem (readBytes_length ..)
  intro j _ inside
  simp only [readBytes, List.getElem_map, List.getElem_range, memRead_eq, Memory.read_writeBytes, Nat.add_sub_cancel_left]
  exact dif_pos ⟨Nat.le_add_right a j, inside⟩

/-- Bytes written from an index up leave the bytes below it. -/
theorem read_writeBytes_of_lt (m : Memory) {a i : Nat} (bytes : List Byte) (below : i < a) :
    (m.writeBytes a bytes).read i = m.read i := by
  rw [Memory.read_writeBytes, dif_neg (by omega)]

/-- A boundary phase, if due, leaves the program counter where the next step fetches (R59). -/
theorem boundaryIfDue_pc (s : State) : (boundaryIfDue s).pc = nextFetch s := by
  by_cases due : s.q = 0
  · rw [boundaryIfDue_of_due due, nextFetch, if_pos due, boundary_pc_eq]
    exact (rd24_zero s.mem 2).symm
  · rw [boundaryIfDue_of_not_due due, nextFetch, if_neg due]

/-- A boundary phase, if due, writes the two key bytes only (R58). -/
theorem read_boundaryIfDue {s : State} {i : Nat} (free : s.q = 0 → 2 ≤ i) : (boundaryIfDue s).mem.read i = s.mem.read i := by
  by_cases due : s.q = 0
  · have past := free due
    rw [boundaryIfDue_of_due due, boundary_mem, read_latchKeys, if_neg (by omega), if_neg (by omega)]
  · rw [boundaryIfDue_of_not_due due]

/-- A free window lies past the bytes a due boundary phase uses. -/
theorem le_nextFetch_of_windowIsFree {s : State} (free : windowIsFree s = true) : s.q = 0 → 8 ≤ (nextFetch s).toNat := by
  intro due
  simpa [windowIsFree, due] using (Bool.and_eq_true_iff.1 free).2

/-- The next window is what memory holds there now, when that is past the key bytes. -/
theorem fetchWindow_boundaryIfDue {s : State} (past : s.q = 0 → 8 ≤ (nextFetch s).toNat) :
    fetchWindow (boundaryIfDue s).mem (boundaryIfDue s).pc = fetchWindow s.mem (nextFetch s) := by
  rw [boundaryIfDue_pc, fetchWindow_eq_ofFn, fetchWindow_eq_ofFn]
  congr 1
  funext k
  exact read_boundaryIfDue fun due => by have := past due; omega

/-- Bytes written past the PC reload field do not move the next fetch. -/
theorem nextFetch_writeBytes {s : State} {a : Nat} (bytes : List Byte) (past : s.q = 0 → 8 ≤ a) :
    nextFetch { s with mem := s.mem.writeBytes a bytes } = nextFetch s := by
  by_cases due : s.q = 0
  · have above := past due
    have place : (toAddr Config.table.addrPcVec).toNat = 2 := rfl
    simp only [nextFetch, if_pos due, rd24_zero, place]
    rw [read_writeBytes_of_lt _ _ (by omega), read_writeBytes_of_lt _ _ (by omega), read_writeBytes_of_lt _ _ (by omega)]
  · rw [nextFetch, nextFetch, if_neg due, if_neg due]

/-- The next fetch goes where it is redirected: through the PC reload field when a boundary is due, through the PC otherwise. -/
theorem nextFetch_redirectFetch (s : State) : nextFetch s.redirectFetch = freeAddr := by
  by_cases due : s.q = 0
  · have field : readBytes (s.mem.writeBytes 2 (fieldBytes freeAddr)) 2 3 = fieldBytes freeAddr := readBytes_writeBytes ..
    have reload : rd24 (s.mem.writeBytes 2 (fieldBytes freeAddr)) (toAddr 2) 0 =
        joinBytes (fieldBytes freeAddr) := congrArg joinBytes field
    simpa [nextFetch, State.redirectFetch, due] using reload
  · simp [nextFetch, State.redirectFetch, due]

/-- Where a word is placed it overlaps no byte that a due boundary phase uses, and the next fetch goes there. -/
theorem withFetchWord_eq (s : State) (nbits w : Nat) : ∃ u : State, (u.q = 0 → 8 ≤ (nextFetch u).toNat) ∧
    s.withFetchWord nbits w = { u with mem := u.mem.writeBytes (nextFetch u).toNat (tableBytes nbits w) } := by
  by_cases free : windowIsFree s = true
  · refine ⟨s, le_nextFetch_of_windowIsFree free, ?_⟩
    rw [State.withFetchWord, placeWord, if_pos free]
  · refine ⟨s.redirectFetch, fun _ => ?_, ?_⟩
    · rw [nextFetch_redirectFetch]
      decide
    · rw [State.withFetchWord, placeWord, if_neg free]

/-- The window of the next step after a word is placed is the word's bytes. -/
theorem fetchWindow_withFetchWord (s : State) (nbits w : Nat) :
    fetchWindow (boundaryIfDue (s.withFetchWord nbits w)).mem (boundaryIfDue (s.withFetchWord nbits w)).pc = tableBytes nbits w := by
  obtain ⟨u, past, placed⟩ := withFetchWord_eq s nbits w
  have fetch := nextFetch_writeBytes (tableBytes nbits w) past
  rw [placed, fetchWindow_boundaryIfDue (by rw [fetch]; exact past), fetch]
  have window := readBytes_writeBytes u.mem (nextFetch u).toNat (tableBytes nbits w)
  rw [tableBytes_length] at window
  exact window

/-- Settles O52: the window is the word's bytes, and a step runs what its window decodes to. -/
theorem placedWordRunsNext : Obligations.PlacedWordRunsNext := by
  intro s nbits w i word
  have window := fetchWindow_withFetchWord s nbits w
  obtain ⟨rest, decoded⟩ := decodeTableWord_eq_some word
  exact ⟨window, step_of_decode (window ▸ decoded)⟩

end Sys2Proof.Machine
end

section
/-! SUPPORT. Proofs about the key states of a tick: the Pacer's loop as a run of steps, each from the key state the host holds then
(spec/ R58, R69, R72, R90 item 6). -/

namespace Sys2Proof.Machine

/-- Where a boundary is due the host's next draw is the key state, if there is one. -/
theorem sampleKeys_of_due {s : State} (due : s.q = 0) (draws : List KeyState) :
    s.sampleKeys draws = { s with keys := draws.headD s.keys } := by
  rw [State.sampleKeys, if_pos due]

/-- Where no boundary is due the key state is not sampled. -/
theorem sampleKeys_of_not_due {s : State} (running : s.q ≠ 0) (draws : List KeyState) : s.sampleKeys draws = s := by
  rw [State.sampleKeys, if_neg running]

/-- The next of the draws that m boundaries have left is draw number m. -/
theorem headD_drop (draws : List KeyState) (m : Nat) (held : KeyState) : (draws.drop m).headD held = draws.getD m held := by
  rw [List.headD_eq_head?_getD, List.head?_drop, List.getD_eq_getElem?_getD]

/-- One turn of the Pacer's loop but for the carry: a step from the state with its key state sampled, and the draws left. -/
def sampledStep (x : State × List KeyState) : State × List KeyState :=
  (afterStep (x.1.sampleKeys x.2), drawsLeft x.1 x.2)

/-- The state after j turns of the Pacer's loop, but for the carry. -/
def sampledRun (draws : List KeyState) (s : State) (j : Nat) : State := (sampledStep^[j] (s, draws)).1

theorem sampledRun_zero (draws : List KeyState) (s : State) : sampledRun draws s 0 = s := rfl

/-- The first turn of the loop, and the rest from there. -/
theorem sampledRun_succ (draws : List KeyState) (s : State) (j : Nat) :
    sampledRun draws s (j + 1) = sampledRun (drawsLeft s draws) (afterStep (s.sampleKeys draws)) j := rfl

/-- The draws left after j turns: each frame counted has taken one (R58, R60). -/
theorem iterate_sampledStep_draws (draws : List KeyState) (s : State) (j : Nat) :
    s.frames ≤ (sampledRun draws s j).frames ∧
      (sampledStep^[j] (s, draws)).2 = draws.drop ((sampledRun draws s j).frames - s.frames) := by
  induction j with
  | zero => exact ⟨le_refl s.frames, by rw [sampledRun_zero, Nat.sub_self, List.drop_zero]; rfl⟩
  | succ j ih =>
    rw [sampledRun] at ih ⊢
    rw [Function.iterate_succ_apply', sampledStep, afterStep_frames, State.sampleKeys_frames, State.sampleKeys_q, drawsLeft]
    obtain ⟨counted, left⟩ := ih
    by_cases due : (sampledStep^[j] (s, draws)).1.q = 0
    · rw [if_pos due, if_pos due, left, List.tail_drop, Nat.sub_add_comm counted]
      exact ⟨Nat.le_succ_of_le counted, rfl⟩
    · rw [if_neg due, if_neg due, Nat.add_zero]
      exact ⟨counted, left⟩

/-- The last turn of the loop: a step from the state before it, its key state sampled from the draws that the frames counted so far
leave. -/
theorem sampledRun_succ' (draws : List KeyState) (s : State) (j : Nat) :
    sampledRun draws s (j + 1) =
      afterStep ((sampledRun draws s j).sampleKeys (draws.drop ((sampledRun draws s j).frames - s.frames))) := by
  rw [sampledRun, Function.iterate_succ_apply', ← (iterate_sampledStep_draws draws s j).2]
  rfl

/-- A step keeps whatever carry it finds (R16). -/
theorem afterStep_with_acc (s : State) (acc : ℚ) : afterStep { s with acc := acc } = { afterStep s with acc := acc } := by
  rw [afterStep_with_pacer s acc s.speed s.paused]
  simp

/-- With a carry of at least n, n turns of the loop are the steps of the sampled run, and the carry goes down by n (R72). -/
theorem drain_eq_sampledRun (n : Nat) (draws : List KeyState) (s : State) {acc : ℚ} (enough : n ≤ acc) :
    drain n draws { s with acc := acc } = .next { sampledRun draws s n with acc := acc - n } := by
  induction n generalizing draws s acc with
  | zero => rw [drain_zero, sampledRun_zero, Nat.cast_zero, sub_zero]
  | succ n ih =>
    push_cast at enough
    have whole : 1 ≤ acc := le_trans (le_add_of_nonneg_left n.cast_nonneg) enough
    have turn : (afterStep (({ s with acc := acc } : State).sampleKeys draws)).spend =
        { afterStep (s.sampleKeys draws) with acc := acc - 1 } := by
      have sampled : ({ s with acc := acc } : State).sampleKeys draws = { s.sampleKeys draws with acc := acc } := rfl
      rw [sampled, afterStep_with_acc]
      rfl
    rw [drain_turn n draws _ whole, turn, ih _ _ (le_sub_iff_add_le.2 enough), sampledRun_succ]
    push_cast
    rw [sub_sub, add_comm 1]
    rfl

/-- What a tick converts is not negative where the carry and the speed are not (R16, R70). -/
theorem accumulate_acc_nonneg {s : State} {e : ℚ} (elapsed : 0 ≤ e) (carry : 0 ≤ s.acc) (speed : 0 ≤ s.speed) :
    0 ≤ s.acc + Config.ipms * s.speed * min e 50 := by
  have clamped : 0 ≤ min e 50 := le_min elapsed (by norm_num)
  rw [ipms_table]
  positivity

/-- An unpaused tick is the sampled run of the whole part of its carry, and the fractional part stays (R69, R72). -/
theorem tick_eq_sampledRun (draws : List KeyState) {s : State} {e : ℚ} (elapsed : 0 ≤ e) (running : s.paused = false)
    (carry : 0 ≤ s.acc) (speed : 0 ≤ s.speed) {n : Nat} (count : n = ⌊s.acc + Config.ipms * s.speed * min e 50⌋₊) :
    tick e draws s = .next { sampledRun draws s n with acc := s.acc + Config.ipms * s.speed * min e 50 - n } := by
  rw [tick_running elapsed draws running, State.accumulate_acc, clampElapsed_table, ← count]
  exact drain_eq_sampledRun n draws s (count ▸ Nat.floor_le (accumulate_acc_nonneg elapsed carry speed))

/-- A step at which a boundary is due latches the key state it finds, and runs R48's pseudocode from there (R56, R58). -/
theorem step_latches_of_due {s : State} (due : s.q = 0) :
    step s = .next (afterStep s) ∧
      memRead (boundary s).mem (addrIndex 0) = s.keys.extractLsb' 8 8 ∧
      memRead (boundary s).mem (addrIndex 1) = s.keys.extractLsb' 0 8 ∧
      (afterStep s).mem = (executeOne (boundary s)).mem ∧ (afterStep s).pc = (executeOne (boundary s)).pc := by
  obtain ⟨-, latched, -⟩ := boundaryExtractsLatchesReloads s
  refine ⟨step_next s, latched ⟨0, by decide⟩, latched ⟨1, by decide⟩, ?_, ?_⟩
  · rw [afterStep_mem_eq, boundaryIfDue_of_due due]
  · rw [afterStep_pc_eq, boundaryIfDue_of_due due]

/-- Settles O56: the states are those of the sampled run, and a step from one with q = 0 is a boundary phase that latches the sampled
key state and then the pseudocode. -/
theorem tickLatchesEachDraw : Obligations.TickLatchesEachDraw := by
  intro e draws s elapsed running carry speed
  refine ⟨_, sampledRun draws s, rfl, sampledRun_zero draws s, tick_eq_sampledRun draws elapsed running carry speed rfl,
    fun j _ => ⟨fun midFrame => ?_, fun due => ⟨_, rfl, ?_⟩⟩⟩
  · rw [sampledRun_succ', sampleKeys_of_not_due midFrame, step_next]
  · rw [sampledRun_succ', sampleKeys_of_due due, headD_drop]
    exact step_latches_of_due (s := { sampledRun draws s j with keys := _ }) due

end Sys2Proof.Machine
end

section
/-! SUPPORT. Proofs about the Pacer: what a tick adds to the carry, how many steps it runs, the carry over many ticks, and the pause (spec/
R69 to R77). -/

namespace Sys2Proof.Machine

/-! The clamp (R70). -/

/-- What a tick adds to the carry at the clamp: three nominal frames at speed 1. -/
theorem ipms_mul_fifty (speed : ℚ) : Config.ipms * speed * 50 = 196608 * speed := by
  rw [ipms_table]
  ring

/-- Past 50 ms only the clamp is seen. -/
theorem accumulate_of_ge {e : ℚ} (long : 50 ≤ e) (s : State) : s.accumulate e = s.accumulate 50 := by
  rw [State.accumulate, State.accumulate, clampElapsed_table, clampElapsed_table, min_eq_right long, min_self]

/-- Settles O33: past 50 ms the accumulated carry is that of 50 ms, and at most 50 ms are converted. -/
theorem tickIsClampedToFiftyMilliseconds : Obligations.TickIsClampedToFiftyMilliseconds := by
  refine ⟨fun e draws s long => ?same, fun e s speed => ?bound, fun e s long => ?exact⟩
  case same =>
    have elapsed : 0 ≤ e := le_trans (by norm_num) long
    cases paused : s.paused with
    | true => rw [tick_paused elapsed draws paused, tick_paused (by norm_num) draws paused]
    | false => rw [tick_running elapsed draws paused, tick_running (by norm_num) draws paused, accumulate_of_ge long]
  case bound =>
    have rate : 0 ≤ Config.ipms * s.speed := mul_nonneg (by rw [ipms_table]; norm_num) speed
    rw [State.accumulate_acc, clampElapsed_table, ← ipms_mul_fifty]
    exact add_le_add_right (mul_le_mul_of_nonneg_left (min_le_right e 50) rate) s.acc
  case exact => rw [State.accumulate_acc, clampElapsed_table, min_eq_right long, ipms_mul_fifty]

/-! The fields that the loop moves whatever keys it samples (R13, R14, R90). -/

@[simp] theorem sampledRun_speed (draws : List KeyState) (s : State) (n : Nat) : (sampledRun draws s n).speed = s.speed := by
  induction n with
  | zero => rfl
  | succ n ih => rw [sampledRun_succ', afterStep_speed, State.sampleKeys_speed, ih]

@[simp] theorem sampledRun_paused (draws : List KeyState) (s : State) (n : Nat) : (sampledRun draws s n).paused = s.paused := by
  induction n with
  | zero => rfl
  | succ n ih => rw [sampledRun_succ', afterStep_paused, State.sampleKeys_paused, ih]

/-- Each turn of the loop counts one instruction. -/
theorem sampledRun_q (draws : List KeyState) {s : State} (range : s.q < 65536) (n : Nat) :
    (sampledRun draws s n).q = (s.q + n) % 65536 := by
  induction n with
  | zero => exact (Nat.mod_eq_of_lt range).symm
  | succ n ih => rw [sampledRun_succ', afterStep_q, State.sampleKeys_q, ih, Nat.mod_add_mod, Nat.add_assoc]

/-- A turn that starts at a multiple of 65,536 instructions counts a frame, so the frames counted in n turns are the multiples of 65,536
among q to q + n - 1 (R55, R60). -/
theorem sampledRun_frames (draws : List KeyState) {s : State} (range : s.q < 65536) (n : Nat) :
    (sampledRun draws s n).frames + (s.q + 65535) / 65536 = s.frames + (s.q + n + 65535) / 65536 := by
  induction n with
  | zero => rfl
  | succ n ih =>
    rw [sampledRun_succ', afterStep_frames, State.sampleKeys_frames, State.sampleKeys_q, sampledRun_q draws range]
    split <;> omega

/-- Settles O35: the tick is the sampled run, and none of the fields named depends on the keys sampled. -/
theorem tickStepCountIgnoresTheKeys : Obligations.TickStepCountIgnoresTheKeys := by
  intro e draws s elapsed running carry speed range
  exact ⟨_, _, rfl, tick_eq_sampledRun draws elapsed running carry speed rfl, rfl, sampledRun_speed draws s _,
    sampledRun_paused draws s _, sampledRun_q draws range _, sampledRun_frames draws range _⟩

/-! With the key state held, a tick depends on the sum of instructions earned alone (R71, R72). -/

/-- With no draws the loop's steps are the machine's. -/
theorem sampledRun_nil (s : State) (n : Nat) : sampledRun [] s n = afterStep^[n] s := by
  induction n with
  | zero => rfl
  | succ n ih => rw [sampledRun_succ', List.drop_nil, sampleKeys_nil, ih, Function.iterate_succ_apply']

/-- Any number of steps keeps whatever carry it finds (R16). -/
theorem iterate_afterStep_with_acc (n : Nat) (s : State) (acc : ℚ) :
    afterStep^[n] { s with acc := acc } = { afterStep^[n] s with acc := acc } :=
  Function.Commute.iterate_left (g := fun u : State => { u with acc := acc }) (fun u => afterStep_with_acc u acc) n s

/-- Where the Pacer stands when `earned` instructions are due from `s` on: the whole ones are run, the fraction is the carry. -/
def State.paced (s : State) (earned : ℚ) : State := { afterStep^[⌊earned⌋₊] s with acc := earned - ⌊earned⌋₊ }

@[simp] theorem State.paced_acc (s : State) (earned : ℚ) : (s.paced earned).acc = earned - ⌊earned⌋₊ := rfl

@[simp] theorem State.paced_speed (s : State) (earned : ℚ) : (s.paced earned).speed = s.speed := by
  rw [State.paced, ← sampledRun_nil, sampledRun_speed]

@[simp] theorem State.paced_paused (s : State) (earned : ℚ) : (s.paced earned).paused = s.paused := by
  rw [State.paced, ← sampledRun_nil, sampledRun_paused]

theorem State.paced_acc_nonneg (s : State) {earned : ℚ} (h : 0 ≤ earned) : 0 ≤ (s.paced earned).acc := sub_nonneg.2 (Nat.floor_le h)

theorem State.paced_acc_lt_one (s : State) (earned : ℚ) : (s.paced earned).acc < 1 := sub_lt_iff_lt_add'.2 (Nat.lt_floor_add_one earned)

/-- With a carry below 1 no step is due. -/
theorem State.paced_self {s : State} (fraction : s.acc < 1) : s.paced s.acc = s := by
  have none_due : ⌊s.acc⌋₊ = 0 := Nat.floor_eq_zero.2 fraction
  rw [State.paced, none_due, Nat.cast_zero, sub_zero]
  rfl

/-- The carry is lossless: what the fraction left and what comes later earn together is what the sum earns (R71). -/
theorem State.paced_paced (s : State) (earned : ℚ) {more : ℚ} (h : 0 ≤ more) :
    (s.paced earned).paced ((s.paced earned).acc + more) = s.paced (earned + more) := by
  have left : (s.paced earned).acc + more = earned + more - ⌊earned⌋₊ := by rw [State.paced_acc]; ring
  have whole : ⌊earned⌋₊ ≤ ⌊earned + more⌋₊ := Nat.floor_mono (le_add_of_nonneg_right h)
  have steps : ⌊earned + more - ⌊earned⌋₊⌋₊ = ⌊earned + more⌋₊ - ⌊earned⌋₊ := Nat.floor_sub_natCast _ _
  rw [left, State.paced, steps, State.paced, iterate_afterStep_with_acc, ← Function.iterate_add_apply, Nat.sub_add_cancel whole,
    Nat.cast_sub whole, State.paced, sub_sub, add_sub_cancel]

/-- What a tick adds to the carry is not negative where the speed is not. -/
theorem earned_nonneg {speed e : ℚ} (h : 0 ≤ speed) (elapsed : 0 ≤ e) : 0 ≤ Config.ipms * speed * e := by
  rw [ipms_table]
  positivity

section
variable {s : State} {e : ℚ} (elapsed : 0 ≤ e) (running : s.paused = false) (speed : 0 ≤ s.speed)
include elapsed running speed

/-- A tick with the key state held runs what the carry and its own time earn (R69, R72). -/
theorem tick_held (carry : 0 ≤ s.acc) : tick e [] s = .next (s.paced (s.acc + Config.ipms * s.speed * min e 50)) := by
  rw [tick_eq_sampledRun [] elapsed running carry speed rfl, sampledRun_nil]
  rfl

/-- A tick of at most 50 ms adds what it earns to what was earned before it (R71). -/
theorem tick_paced (short : e ≤ 50) {earned : ℚ} (h : 0 ≤ earned) :
    tick e [] (s.paced earned) = .next (s.paced (earned + Config.ipms * s.speed * e)) := by
  have answer := tick_held elapsed ((State.paced_paused s earned).trans running) ((State.paced_speed s earned).symm ▸ speed)
    (State.paced_acc_nonneg s h)
  rw [answer, State.paced_speed, min_eq_left short, State.paced_paced s earned (earned_nonneg speed elapsed)]

end

/-- Ticks of at most 50 ms add what their sum earns (R77). -/
theorem hostRun_ticks_paced (es : List ℚ) {s : State} (short : ∀ e ∈ es, 0 ≤ e ∧ e ≤ 50) (running : s.paused = false)
    (speed : 0 ≤ s.speed) {earned : ℚ} (h : 0 ≤ earned) :
    hostRun (es.map fun e => .tick e []) (s.paced earned) = .next (s.paced (earned + Config.ipms * s.speed * es.sum)) := by
  induction es generalizing earned with
  | nil => rw [List.map_nil, hostRun_nil, List.sum_nil, mul_zero, add_zero]
  | cons e es ih =>
    obtain ⟨⟨elapsed, clamp⟩, rest⟩ := List.forall_mem_cons.1 short
    rw [List.map_cons, hostRun_cons, hostOp, tick_paced elapsed running speed clamp h, andThen_next,
      ih rest (add_nonneg h (earned_nonneg speed elapsed)), List.sum_cons, mul_add, add_assoc]

/-- Settles O34: the tick stops where the whole part of what was earned is run. -/
theorem tickRunsTheWholePartOfTheCarry : Obligations.TickRunsTheWholePartOfTheCarry := by
  intro e s elapsed running carry speed
  exact ⟨_, _, _, rfl, tick_held elapsed running speed carry, run_eq_iterate _ s, rfl,
    State.paced_acc_nonneg s (accumulate_acc_nonneg elapsed carry speed), State.paced_acc_lt_one s _⟩

/-- Settles O36: the second tick goes on from where the first stops, and both add up to the one tick. -/
theorem splitTicksEqualOneTick : Obligations.SplitTicksEqualOneTick := by
  intro e₁ e₂ s first second sum running carry speed
  have short : e₁ ≤ 50 := by linarith
  rw [tick_held first running speed carry, min_eq_left short, andThen_next,
    tick_paced second running speed (by linarith) (add_nonneg carry (earned_nonneg speed first)),
    tick_held (add_nonneg first second) running speed carry, min_eq_left sum, mul_add, add_assoc]

/-- Settles O37: from a carry below 1 nothing is due at the start, and the ticks add what their sum earns. -/
theorem throughputOverManyTicks : Obligations.ThroughputOverManyTicks := by
  intro es s short running carry fraction speed
  have answer := hostRun_ticks_paced es short running speed carry
  rw [State.paced_self fraction] at answer
  exact ⟨_, _, _, rfl, answer, run_eq_iterate _ s, rfl⟩

/-! The pause (R74, R98). -/

/-- Ticks of a paused machine are as if they had not been called. -/
theorem hostRun_ticks_of_paused (ticks : List (ℚ × List KeyState)) {s : State} (elapsed : ∀ x ∈ ticks, 0 ≤ x.1)
    (paused : s.paused = true) (ops : List HostOp) :
    hostRun ((ticks.map fun x => .tick x.1 x.2) ++ ops) s = hostRun ops s := by
  induction ticks with
  | nil => rfl
  | cons x ticks ih =>
    obtain ⟨now, later⟩ := List.forall_mem_cons.1 elapsed
    rw [List.map_cons, List.cons_append, hostRun_cons, hostOp, tick_paused now x.2 paused, andThen_next, ih later]

/-- Settles O38: only the pause flag is set, and the ticks between find it set. -/
theorem pauseKeepsTheWholeState : Obligations.PauseKeepsTheWholeState := by
  intro ticks s elapsed
  rw [List.append_assoc, List.singleton_append, hostRun_cons, hostOp, setPaused, andThen_next,
    hostRun_ticks_of_paused ticks elapsed rfl]
  rfl

/-! The host's operations and their preconditions (R73, R74, R76, R88). -/

theorem setSpeed_next {m : ℚ} (h : 0 ≤ m) (s : State) : setSpeed m s = .next { s with speed := m } := by
  rw [setSpeed, if_neg (not_lt.2 h)]

theorem setSpeed_negative {m : ℚ} (h : m < 0) (s : State) : setSpeed m s = .refused .negativeSpeed := by
  rw [setSpeed, if_pos h]

/-- Settles O39: each setter answers at once with the one field set. -/
theorem speedAndPauseSetOnlyThemselves : Obligations.SpeedAndPauseSetOnlyThemselves :=
  ⟨fun _ s accepted => setSpeed_next accepted s, fun _ _ => rfl, fun _ _ => rfl⟩

/-- The loop completes from every state, as every step does (R88). -/
theorem drain_completes (fuel : Nat) (draws : List KeyState) (s : State) : ∃ t, drain fuel draws s = .next t := by
  induction fuel generalizing draws s with
  | zero => exact ⟨s, drain_zero draws s⟩
  | succ fuel ih =>
    by_cases whole : 1 ≤ s.acc
    · rw [drain_turn fuel draws s whole]
      exact ih _ _
    · exact ⟨s, drain_stop (fuel + 1) draws s (not_le.1 whole)⟩

/-- A tick the host may make completes from every state, paused or not. -/
theorem tick_completes {e : ℚ} (elapsed : 0 ≤ e) (draws : List KeyState) (s : State) : ∃ t, tick e draws s = .next t := by
  cases paused : s.paused with
  | true => exact ⟨s, tick_paused elapsed draws paused⟩
  | false =>
    rw [tick_running elapsed draws paused]
    exact drain_completes _ draws _

/-- Settles O40: case by case over the operations, the two with a precondition by its sign. -/
theorem onlyHostPreconditionsRefuse : Obligations.OnlyHostPreconditionsRefuse := by
  intro op s
  cases op with
  | tick e draws =>
    by_cases negative : e < 0
    · exact (if_pos negative).mpr (tick_negative negative draws s)
    · exact (if_neg negative).mpr (tick_completes (not_lt.1 negative) draws s)
  | setSpeed m =>
    by_cases negative : m < 0
    · exact (if_pos negative).mpr (setSpeed_negative negative s)
    · exact (if_neg negative).mpr ⟨_, setSpeed_next (not_lt.1 negative) s⟩
  | loadProgram bytes => exact ⟨_, rfl⟩
  | setPaused b => exact ⟨_, rfl⟩
  | setKeys k => exact ⟨_, rfl⟩

end Sys2Proof.Machine
end

section
/-! SUPPORT. Proofs about the output extractor: where the blocks start and what they hold, the palette law, and what an extraction hands
out (spec/ R78 to R87). -/

namespace Sys2Proof.Machine

/-! The blocks (R79, R80, R83, R84). -/

/-- `M[5] << 16` as a number (R79). -/
theorem videoBase_toNat (m : Memory) : (videoBase m).toNat = (memRead m 5).toNat * 65536 := by
  have page : videoBase m = joinField (memRead m 5) 0 0 := rfl
  have zero : (0 : Byte).toNat = 0 := rfl
  rw [page, joinField_toNat, zero]
  omega

/-- `((M[6] << 8) | M[7]) << 8` as a number (R83). -/
theorem audioBase_toNat (m : Memory) : (audioBase m).toNat = ((memRead m 6).toNat * 256 + (memRead m 7).toNat) * 256 := by
  have page : audioBase m = joinField (memRead m 6) (memRead m 7) 0 := rfl
  have zero : (0 : Byte).toNat = 0 := rfl
  rw [page, joinField_toNat, zero]
  omega

/-- The video block ends in the address space (R79). -/
theorem pixelIndex_lt (m : Memory) (i : Fin 65536) : pixelIndex m i < 16777216 := by
  have base := videoBase_le m .table
  have offset := i.isLt
  rw [pixelIndex]
  omega

/-- The audio block ends in the address space (R83). -/
theorem sampleIndex_lt (m : Memory) (i : Fin 256) : sampleIndex m i < 16777216 := by
  have base := audioBase_le m .table
  have offset := i.isLt
  rw [sampleIndex]
  omega

/-- A byte of the address space has an index in the array. -/
theorem lt_arraySize_of_address {n : Nat} (h : n < 16777216) : n < Config.table.arraySize :=
  Nat.lt_trans h (by decide)

/-- Settles O41: the last page starts at 255 * 65,536, so the whole block lies below the pad. -/
theorem videoBlockReadsItsPage : Obligations.VideoBlockReadsItsPage := by
  intro m
  refine ⟨videoBase_toNat m, video_length m, fun i => ?_⟩
  have below := pixelIndex_lt m i
  exact ⟨⟨pixelIndex m i, lt_arraySize_of_address below⟩, rfl, Nat.le_of_lt_succ below, video_pixel m i.isLt⟩

/-- `sext_8`: the upper half of a byte's values stands for the negative numbers (R84). -/
theorem byte_toInt (v : Byte) : v.toInt = if v.toNat < 128 then (v.toNat : Int) else v.toNat - 256 := by
  rw [BitVec.toInt_eq_toNat_cond]
  split <;> split <;> omega

/-- Settles O44: the last page starts at 65,535 * 256, and a sample is its byte's signed value. -/
theorem audioBlockReadsItsPage : Obligations.AudioBlockReadsItsPage := by
  intro m
  refine ⟨audioBase_toNat m, audio_length m, fun i => ?_⟩
  have below := sampleIndex_lt m i
  exact ⟨⟨sampleIndex m i, lt_arraySize_of_address below⟩, _, rfl, Nat.le_of_lt_succ below, audio_sample m i.isLt,
    BitVec.le_toInt _, Int.le_of_lt_add_one BitVec.toInt_lt, byte_toInt _⟩

/-! The palette (R81, R82). -/

/-- Five times the step is 255, so a base-6 digit's channel is not reduced modulo 256. -/
theorem channel_toNat {digit : Nat} (h : digit < 6) : (channel digit).toNat = digit * 51 := by
  rw [channel, BitVec.toNat_ofNat, Config.table_paletteStep]
  omega

theorem channel_levels {digit : Nat} (h : digit < 6) : (channel digit).toNat ∈ [0, 51, 102, 153, 204, 255] := by
  rw [channel_toNat h]
  interval_cases digit <;> decide

theorem colour_of_lt {raw : Byte} (h : raw.toNat < 216) : colour raw =
    { r := channel (raw.toNat / 36 % 6), g := channel (raw.toNat / 6 % 6), b := channel (raw.toNat % 6), a := 255 } := if_pos h

theorem colour_of_reserved {raw : Byte} (h : 216 ≤ raw.toNat) : colour raw = { r := 0, g := 0, b := 0, a := 255 } :=
  if_neg (Nat.not_lt.2 h)

theorem mod_six_lt (n : Nat) : n % 6 < 6 := Nat.mod_lt n (by decide)

/-- Settles O42: each digit is below 6, so its channel is one of the six levels; black is the level 0 three times. -/
theorem paletteLaw : Obligations.PaletteLaw := by
  refine fun raw => ⟨fun colours => ?digits, colour_of_reserved, ?levels⟩
  case digits =>
    rw [colour_of_lt colours]
    exact ⟨channel_toNat (mod_six_lt _), channel_toNat (mod_six_lt _), channel_toNat (mod_six_lt _)⟩
  case levels =>
    by_cases colours : raw.toNat < 216
    · rw [colour_of_lt colours]
      simp only [List.forall_mem_cons]
      exact ⟨channel_levels (mod_six_lt _), channel_levels (mod_six_lt _), channel_levels (mod_six_lt _), List.forall_mem_nil _⟩
    · rw [colour_of_reserved (Nat.not_lt.1 colours)]
      decide

/-- Settles O43: both cases of the law are opaque, and the three digits of raw value 0 are zero. -/
theorem alphaIsOpaqueAndReservedIsBlack : Obligations.AlphaIsOpaqueAndReservedIsBlack := by
  refine ⟨fun raw => ?alpha, fun raw reserved => ?black⟩
  case alpha =>
    by_cases colours : raw.toNat < 216
    · rw [colour_of_lt colours]
    · rw [colour_of_reserved (Nat.not_lt.1 colours)]
  case black =>
    have zero : colour 0 = { r := 0, g := 0, b := 0, a := 255 } := by decide
    rw [colour_of_reserved reserved, zero]

/-! The events of an extraction (R78, R86, R87). -/

/-- Settles O45: each sink's flag alone decides whether its block is in the list, the video block's first. -/
theorem absentSinkSuppressesOnlyItsBlock : Obligations.AbsentSinkSuppressesOnlyItsBlock :=
  fun _ => ⟨rfl, rfl, rfl, rfl⟩

/-- Settles O46: extraction is an update of the record of events alone. -/
theorem extractionWritesNothing : Obligations.ExtractionWritesNothing :=
  fun s => ⟨rfl, State.extract_emitted s .table⟩

end Sys2Proof.Machine
end

section
/-! SUPPORT. Proofs about the key state between boundaries: only the key latch of a boundary phase reads it, so no instruction sees it
change (spec/ R58, R89). -/

namespace Sys2Proof.Machine

/-- With no boundary due a step is R48's pseudocode and the count, which read no key state: from another one it leads to the same state
but for the keys, which it keeps. -/
theorem afterStep_with_keys {s : State} (running : s.q ≠ 0) (k : KeyState) :
    afterStep { s with keys := k } = { afterStep s with keys := k } := by
  rw [afterStep_eq_executeOne, afterStep_eq_executeOne, boundaryIfDue_of_not_due running,
    boundaryIfDue_of_not_due (s := { s with keys := k }) running]
  rfl

/-- Settles O26: the step answers `afterStep` from both states, and that commutes with the setting of the key state while q is not 0. -/
theorem keyChangeWaitsForTheBoundary : Obligations.KeyChangeWaitsForTheBoundary := by
  intro s k running
  rw [step_next, step_next, andThen_next, afterStep_with_keys running]

end Sys2Proof.Machine
end

section
/-! SUPPORT. Proofs about reset and the start of a program: the machine with nothing loaded, which copies a zero to address 0 for ever, a
write to the PC reload field, and the step after a load (spec/ R62, R63, R99, R104). -/

namespace Sys2Proof.Machine

/-! The machine with nothing loaded (R99). -/

/-- Bytes 0 and 1 apart, an idle machine reads zero at every address. -/
theorem State.idle.read_eq_zero {s : State} (idle : s.idle) {i : Nat} (first : 2 ≤ i) (address : i < 16777216) : s.mem.read i = 0 := by
  rw [← memRead_eq]
  exact idle.mem_zero ⟨i, lt_arraySize_of_address address⟩ first

/-- The key state can stand in the two lowest bytes of field A only, the third byte of which is zero; fields B and C are zero. -/
theorem fetched_of_idle {s : State} (idle : s.idle) : fetched s = .cbj (joinField (s.mem.read 0) (s.mem.read 1) 0) 0 0 := by
  have fieldA : rd24 s.mem 0 0 = joinField (s.mem.read 0) (s.mem.read 1) 0 :=
    (rd24_zero s.mem 0).trans (congrArg _ (idle.read_eq_zero (i := 2) (by decide) (by decide)))
  have zeroField {k : Nat} (first : 2 ≤ k) (address : k + 2 < 16777216) : rd24 s.mem 0 k = 0 := by
    have origin : (0 : Addr).toNat + k = k := Nat.zero_add k
    rw [rd24_eq, origin, idle.read_eq_zero first (by omega), idle.read_eq_zero (by omega) (by omega),
      idle.read_eq_zero (by omega) address]
    rfl
  rw [fetched, idle.pc_zero, fieldA, zeroField (by decide) (by decide), zeroField (by decide) (by decide)]

/-- The byte an idle machine copies is zero, whatever the key bytes: the source address is a multiple of 256, so it is 0 or past the key
bytes, and it is 0 only if byte 0 is zero itself. -/
theorem readData_of_idle {s : State} (idle : s.idle) : s.readData (joinField (s.mem.read 0) (s.mem.read 1) 0) = 0 := by
  have source : (joinField (s.mem.read 0) (s.mem.read 1) 0).toNat = (s.mem.read 0).toNat * 65536 + (s.mem.read 1).toNat * 256 := by
    simp [joinField_toNat]
  rw [readData_eq, source]
  by_cases keysZero : (s.mem.read 0).toNat * 65536 + (s.mem.read 1).toNat * 256 = 0
  · rw [keysZero]
    exact BitVec.eq_of_toNat_eq (show (s.mem.read 0).toNat = 0 by omega)
  · have high := (s.mem.read 0).isLt
    have low := (s.mem.read 1).isLt
    exact idle.read_eq_zero (by omega) (by omega)

/-- The one instruction an idle machine runs writes a zero to address 0 and jumps to 0. -/
theorem executeOne_of_idle {s : State} (idle : s.idle) : executeOne s = { s with mem := memWrite s.mem 0 0, pc := 0 } := by
  have notInC : (0 : Addr).toNat < s.pc.toNat + 6 := Nat.succ_pos _
  have run := exec_fetched s
  rw [fetched_of_idle idle, execCbj_next, readData_of_idle idle, targetAfterWrite_outside 0 0 (.inl notInC)] at run
  exact (Host.Outcome.next.inj run).symm

/-- A boundary phase, if due, writes the key bytes of an idle machine and reloads the PC with zero. -/
theorem idle_boundaryIfDue {s : State} (idle : s.idle) : (boundaryIfDue s).idle := by
  by_cases due : s.q = 0
  · rw [boundaryIfDue_of_due due]
    refine ⟨?pc, fun i past => ?mem, .inr due⟩
    case pc =>
      rw [boundary_pc_eq, idle.read_eq_zero (by decide) (by decide), idle.read_eq_zero (by decide) (by decide),
        idle.read_eq_zero (by decide) (by decide)]
      rfl
    case mem =>
      rw [← boundaryIfDue_of_due due, memRead_eq, read_boundaryIfDue fun _ => past, ← memRead_eq]
      exact idle.mem_zero i past
  · rwa [boundaryIfDue_of_not_due due]

/-- Byte 1 after a boundary phase, if due, holds the low key byte (R58). -/
theorem read_one_boundaryIfDue (s : State) :
    (boundaryIfDue s).mem.read 1 = if s.q = 0 then keysLow s.keys else s.mem.read 1 := by
  by_cases due : s.q = 0
  · rw [boundaryIfDue_of_due due, if_pos due, boundary_mem, read_latchKeys]
    rfl
  · rw [boundaryIfDue_of_not_due due, if_neg due]

/-- A step of an idle machine writes a zero to byte 0 and leaves the others as the boundary phase, if due, left them. -/
theorem read_afterStep_of_idle {s : State} (idle : s.idle) (i : Nat) :
    (afterStep s).mem.read i = if i = 0 then 0 else (boundaryIfDue s).mem.read i := by
  rw [afterStep_mem_eq, executeOne_of_idle (idle_boundaryIfDue idle), read_memWrite]
  rfl

theorem read_one_afterStep_of_idle {s : State} (idle : s.idle) :
    (afterStep s).mem.read 1 = if s.q = 0 then keysLow s.keys else s.mem.read 1 := by
  rw [read_afterStep_of_idle idle, if_neg (by decide), read_one_boundaryIfDue]

theorem idle_afterStep {s : State} (idle : s.idle) : (afterStep s).idle where
  pc_zero := by rw [afterStep_pc_eq, executeOne_of_idle (idle_boundaryIfDue idle)]
  mem_zero i past := by
    rw [memRead_eq, read_afterStep_of_idle idle, if_neg (by omega), ← memRead_eq]
    exact (idle_boundaryIfDue idle).mem_zero i past
  high_key := .inl (by rw [memRead_eq, read_afterStep_of_idle idle]; rfl)

theorem idle_reset : State.reset.idle := ⟨rfl, fun i _ => memRead_eq [] i, .inr rfl⟩

/-- Settles O57: a step answers `afterStep`, which writes a zero to address 0 and jumps there again. -/
theorem idleMachineStaysIdle : Obligations.IdleMachineStaysIdle := by
  refine ⟨idle_reset, fun s t idle stepped => ?_⟩
  obtain rfl : afterStep s = t := Host.Outcome.next.inj ((step_next s).symm.trans stepped)
  refine ⟨idle_afterStep idle, ?_⟩
  rw [memRead_eq, memRead_eq]
  exact read_one_afterStep_of_idle idle

/-- An idle machine whose host holds the key state k, with the low byte of k in byte 1 unless the boundary that latches it is due. -/
structure State.idleHolding (s : State) (k : KeyState) : Prop where
  idle : s.idle
  keys_held : s.keys = k
  low_key : s.q ≠ 0 → s.mem.read 1 = keysLow k

/-- After a step byte 1 holds the low byte of the keys held, latched by this step or before it. -/
theorem State.idleHolding.read_one_afterStep {s : State} {k : KeyState} (h : s.idleHolding k) :
    (afterStep s).mem.read 1 = keysLow k := by
  rw [read_one_afterStep_of_idle h.idle, h.keys_held]
  split
  · rfl
  · next running => exact h.low_key running

theorem State.idleHolding.iterate {s : State} {k : KeyState} (h : s.idleHolding k) (n : Nat) : (afterStep^[n] s).idleHolding k := by
  induction n with
  | zero => exact h
  | succ n ih =>
    rw [Function.iterate_succ_apply']
    exact ⟨idle_afterStep ih.idle, (afterStep_keys _).trans ih.keys_held, fun _ => ih.read_one_afterStep⟩

/-- VM start with a key state of the host's. -/
theorem idleHolding_reset (k : KeyState) : ({ State.reset with keys := k } : State).idleHolding k where
  idle := ⟨idle_reset.pc_zero, idle_reset.mem_zero, idle_reset.high_key⟩
  keys_held := rfl
  low_key running := absurd rfl running

/-- Every byte of the array after a step of an idle machine. -/
theorem State.idleHolding.memRead_afterStep {s : State} {k : KeyState} (h : s.idleHolding k) (i : ArrayIndex) :
    memRead (afterStep s).mem i = if i.val = 1 then keysLow k else 0 := by
  by_cases key : i.val < 2
  · obtain zero | one : i.val = 0 ∨ i.val = 1 := by omega
    · rw [memRead_eq, zero, read_afterStep_of_idle h.idle]
      rfl
    · rw [memRead_eq, one, h.read_one_afterStep]
      rfl
  · rw [(idle_afterStep h.idle).mem_zero i (by omega), if_neg (by omega)]

/-- The blocks of a memory that is all zero: every pixel black, every sample zero (R80, R81, R84). -/
theorem emissions_of_empty : emissions true true [] =
    [.video (List.replicate 65536 { r := 0, g := 0, b := 0, a := 255 }), .audio (List.replicate 256 0)] := by
  have black : colour 0 = { r := 0, g := 0, b := 0, a := 255 } := by decide
  have pixels : video [] = List.replicate 65536 { r := 0, g := 0, b := 0, a := 255 } := by
    simp only [video, memRead_eq, Memory.read_nil, black, List.map_const', List.length_range, Config.table_pixels]
  have zero : (0 : Byte).toInt = 0 := by decide
  have samples : audio [] = List.replicate 256 0 := by
    simp only [audio, memRead_eq, Memory.read_nil, zero, List.map_const', List.length_range, Config.table_samples]
  rw [(absentSinkSuppressesOnlyItsBlock []).1, pixels, samples]

/-- Settles O28: the machine is idle with its keys held after any number of steps, and one more step settles every byte. -/
theorem emptyMachineRunsAtZero : Obligations.EmptyMachineRunsAtZero := by
  intro k n
  have held := (idleHolding_reset k).iterate n
  refine ⟨_, (run_eq_iterate (n + 1) _).trans (congrArg _ (Function.iterate_succ_apply' ..)), (idle_afterStep held.idle).pc_zero,
    held.memRead_afterStep, emissions_of_empty, fun first => ?_⟩
  rw [first, Function.iterate_zero_apply, afterStep_emitted, boundaryIfDue_of_due rfl, boundary_emitted, State.extract_emitted]
  exact List.nil_append _

/-! Where a program starts (R59, R62, R63, R104). -/

/-- Settles O17: the write is outside the instruction's own field C, and the boundary phase reloads from the bytes it left. -/
theorem pcVectorWriteWaitsForTheBoundary : Obligations.PcVectorWriteWaitsForTheBoundary := by
  intro a b c s _ _ outside
  refine ⟨_, execCbj_next a b c s, targetAfterWrite_outside c _ outside, ?_⟩
  rw [boundary_pc_eq]
  simp only [State.jumpTo_mem, read_writeData, readData_eq, memRead_eq, addrIndex_eq, eq_comm (b := b.toNat)]
  rfl

/-- Settles O31: a load leaves a boundary due, which finds the image's bytes in memory. -/
theorem stepAfterLoadStartsTheImage : Obligations.StepAfterLoadStartsTheImage := by
  intro bytes s
  obtain ⟨t, stepped, due, -, q, -⟩ := stepIsBoundaryThenInstruction { s with mem := imageMemory bytes, q := 0 }
  obtain ⟨mem, pc, frames, emitted⟩ := due rfl
  refine ⟨_, t, rfl, stepped, ?start, mem, pc, q, frames, emitted⟩
  case start =>
    rw [boundary_pc_eq, read_imageMemory, read_imageMemory, read_imageMemory]
    rfl

end Sys2Proof.Machine
end

section
/-! SUPPORT. Proofs about the words of the opcode table and about the windows at the top of memory: where the bits of a word and the zeros
of the pad go in the three fields (spec/ R40, R45; log 2). -/

namespace Sys2Proof

/-! The words of the opcode table. -/

/-- A word with no bit at or above `nbits` is stored whole (log 2). -/
theorem tableBytes_of_lt {nbits w : Nat} (h : w < 2 ^ nbits) : tableBytes nbits w = valueBytes 9 w := by
  rw [tableBytes, Nat.mod_eq_of_lt h, Config.table_instrBytes]

/-- The nine bytes of a 72-bit value decode to its three slices of 24 bits, the most significant first (R40). -/
theorem decode_valueBytes (w : BitVec 72) : decode (valueBytes 9 w.toNat) =
    .ok (.cbj (w.extractLsb' 48 24) (w.extractLsb' 24 24) (w.extractLsb' 0 24), []) := by
  have slice : ∀ n, joinField (BitVec.ofNat 8 (w.toNat / 256 ^ (n + 2))) (BitVec.ofNat 8 (w.toNat / 256 ^ (n + 1)))
      (BitVec.ofNat 8 (w.toNat / 256 ^ n)) = w.extractLsb' (8 * n) 24 := fun n =>
    joinField_eq_extractLsb' (BitVec.toNat_ofNat ..) (BitVec.toNat_ofNat ..) (BitVec.toNat_ofNat ..)
  simp only [valueBytes, decode_nine]
  rw [slice 6, slice 3, slice 0]

/-- Settles O5: the word is stored whole, and its bytes decode to its slices. -/
theorem tableWordFieldsAreBitSlices : Obligations.TableWordFieldsAreBitSlices := by
  intro nbits w _ short
  rw [decodeTableWord, tableBytes_of_lt short, decode_valueBytes]

/-- Settles O1: each word's fields are its bit slices, and the byte string is three fields. -/
theorem specWordsDecode : Obligations.SpecWordsDecode := by
  have word := fun w : BitVec 72 => tableWordFieldsAreBitSlices 72 w le_rfl w.isLt
  exact ⟨word 0x000020000021000100, word 0x000020000106000100, word 0xFFFFFFFFFFFFFFFFF7, word 0, decode_nine ..⟩

namespace Machine

/-! Windows at the top of memory (R45). -/

/-- What is zero, with the pad zero, of the field k bytes into a window: its lowest byte, its two lower bytes or all of it, as that many
of its bytes lie past the top (R25, R45, D1). -/
theorem rd24_past_top {m : Memory} (zero : m.padZero) (pc : Addr) {k : Nat} (inWindow : k ≤ 6) :
    (16777214 ≤ pc.toNat + k → fieldLow (rd24 m pc k) = 0) ∧ (16777215 ≤ pc.toNat + k → fieldMid (rd24 m pc k) = 0) ∧
      (16777216 ≤ pc.toNat + k → rd24 m pc k = 0) := by
  have inArray := addr_toNat_lt pc
  refine ⟨fun past => ?low, fun past => ?mid, fun past => rd24_of_padZero zero past (by omega)⟩
  case low =>
    rw [rd24_eq, fieldLow_join]
    exact zero.read_eq_zero (by omega) (by omega)
  case mid =>
    rw [rd24_eq, fieldMid_join]
    exact zero.read_eq_zero (by omega) (by omega)

/-- Settles O10: the fields lie 0, 3 and 6 bytes into the window, and each is zero as far as its bytes are past the top. -/
theorem fetchPastTheTopReadsZeros : Obligations.FetchPastTheTopReadsZeros := by
  intro m pc a b c zero decoded
  rw [decode_fetchWindow] at decoded
  obtain ⟨rfl, rfl, rfl⟩ : rd24 m pc 0 = a ∧ rd24 m pc 3 = b ∧ rd24 m pc 6 = c := by simpa using decoded
  obtain ⟨aLow, aMid, -⟩ := rd24_past_top zero pc (k := 0) (by decide)
  obtain ⟨bLow, bMid, bAll⟩ := rd24_past_top zero pc (k := 3) (by decide)
  obtain ⟨cLow, cMid, cAll⟩ := rd24_past_top zero pc (k := 6) (by decide)
  exact ⟨fun h => cLow (by omega), fun h => cMid (by omega), fun h => cAll (by omega), fun h => bLow (by omega),
    fun h => bMid (by omega), fun h => bAll (by omega), fun h => aLow (by omega), fun h => aMid (by omega)⟩

end Machine
end Sys2Proof
end

section
/-! SUPPORT. Proofs about the spec's listings: the image of a listing of one line (spec/ R46; log 14). -/

namespace Sys2Proof.Machine

/-- A number of 24 bits is an operand, whatever labels are defined. -/
theorem wellFormed_num (a : Addr) (defined : List Label) : (Operand.num a.toNat).wellFormed defined = true :=
  decide_eq_true a.isLt

/-- The value of a number of 24 bits is the number. -/
theorem operandValue_num (a : Addr) (addresses : List (Label × Nat)) : operandValue addresses (.num a.toNat) = some a := by
  rw [operandValue, if_pos a.isLt, BitVec.ofNat_toNat, BitVec.setWidth_eq]

/-- A line `CBJ A, B, C` with numbers for operands emits the encoding of the instruction. -/
theorem lineBytes_cbj (a b c : Addr) (addresses : List (Label × Nat)) :
    lineBytes addresses (.cbj (.num a.toNat) (.num b.toNat) (.num c.toNat)) = some (encode (.cbj a b c)) := by
  simp only [lineBytes, operandValue_num]
  rfl

/-- The image of bytes written from address 0 up in an empty array, up to the highest of them. -/
theorem map_read_writeBytes (bytes : List Byte) :
    (List.range bytes.length).map (Memory.read (Memory.writeBytes [] 0 bytes)) = bytes := by
  simpa only [readBytes, Nat.zero_add, memRead_eq] using readBytes_writeBytes [] 0 bytes

/-- The image of a listing of one line is the bytes of that line: they start at address 0, where the image starts (log 14). -/
theorem assemble_singleton {item : Item} {bytes : List Byte} (wf : Item.listingWellFormed [item] = true)
    (emitted : lineBytes (labelAddresses listingStart [item]) item = some bytes) : assemble [item] = some bytes := by
  have top : (if bytes.isEmpty then 0 else max 0 (listingStart + bytes.length)) = bytes.length := by
    cases bytes with
    | nil => rfl
    | cons v rest => exact (Nat.zero_max _).trans (Nat.zero_add _)
  simp only [assemble, if_pos wf, placeLines, emitted, Option.map_some, top]
  exact congrArg some (map_read_writeBytes bytes)

/-- Settles O6: the line is well-formed and emits the encoding, which is the whole image. -/
theorem assembledCbjIsItsEncoding : Obligations.AssembledCbjIsItsEncoding := by
  intro a b c
  refine assemble_singleton ?wf (lineBytes_cbj a b c _)
  case wf => simp [Item.listingWellFormed, Item.labels, Item.wellFormed, wellFormed_num]

end Sys2Proof.Machine
end
